-- ==== Sys2Proof/Word.lean ====
section
/-!
DEFINITION. The block's word types (00_scope.md R7, R9): everything the spec treats as bits.
An identifier is a plain Nat: "one `ID_W`-bit unsigned value with no byte order inside the block" (20_memory.md R64), whose
width is a parameter and which the block only copies; that it is below `2 ^ ID_W` is part of well-formedness and of the
invariant (log 19).
-/

namespace Sys2Proof

/-- A pointer `{lap, index}`, `PW = 4` bits (40_circular_index.md R100); also one Gray-coded pointer. -/
abbrev Ptr := BitVec 4

/-- A cursor, a live slot's number, `AW = 3` bits (10_state.md R30). -/
abbrev Index := BitVec 3

/-- A frame's payload: eight bytes, byte `k` in bits `[8k+7:8k]` (20_memory.md R63). -/
abbrev Payload := BitVec 64

/-- One payload byte. -/
abbrev Byte := BitVec 8

/-- A length field, `LEN_W = 4` bits (00_scope.md R7). -/
abbrev Len := BitVec 4

end Sys2Proof
end

