-- ==== Sys2Proof/Config.lean ====
section
/-!
DEFINITION. What is fixed for a machine: the parameters of 00_scope.md R7 and R8, and the free values.
-/

namespace Sys2Proof

/-- The build's parameters. "The model takes `ID_W` and `SYNC_STAGES` as arguments" (00_scope.md R7); the
capacity stands beside them because "A model refuses any other `CAP`" (R8). No step changes them. -/
structure Params where
  /-- `CAP`, the number of live slots. -/
  cap : Nat
  /-- `ID_W`, the identifier's width in bits. -/
  idW : Nat
  /-- `SYNC_STAGES`, the flip-flops in each pointer synchronizer. -/
  syncStages : Nat
  deriving DecidableEq, Repr

/-- `CAP = 8` (00_scope.md R7). -/
abbrev Config.cap : Nat := 8

/-- `FRAME_LEN = 8`, the length every stored frame and the sentinel report (00_scope.md R7). -/
abbrev Config.frameLen : Len := 8

/-- `PAYLOAD_BYTES = 8` (00_scope.md R7). -/
abbrev Config.payloadBytes : Nat := 8

/-- `SLOTS = CAP + 1 = 9` (00_scope.md R7). -/
abbrev Config.slots : Nat := 9

/-- R7's table: `CAP = 8`, `ID_W` by default 32, `SYNC_STAGES` by default 2. -/
def Config.defaultParams : Params where
  cap := 8
  idW := 32
  syncStages := 2

/-- R7's bounds on the two open parameters: `1 <= ID_W` and `2 <= SYNC_STAGES`. -/
def Params.inRange (p : Params) : Bool :=
  decide (1 ≤ p.idW) && decide (2 ≤ p.syncStages)

/-- FREE VALUE (log 3): the identifier a slot holds after a reset and before its first push, by the count of
resets and the slot's number. The spec gives none ("no value", 10_state.md R42; "any value",
93_implementation_defined.md I8). -/
opaque Config.freeId : Nat → Nat → Nat

/-- FREE VALUE (log 3): the payload such a slot holds, by the count of resets and the slot's number. -/
opaque Config.freePayload : Nat → Nat → Payload

end Sys2Proof
end

