-- ==== Sys2Proof/Syntax.lean ====
section
/-!
DEFINITION. The commands of 30_encoding.md R85 (one constructor per row of opcode_table.json) and what the host
presents to the block: input pins at a clock edge, observations, and the synchronizer's draw.
-/

namespace Sys2Proof

/-- A clock domain (10_state.md R20), named by its agent: `write` is agent W, `read` is agent R. -/
inductive Domain where
  | write
  | read
  deriving DecidableEq, Repr

/-- The output a READ_RESULT names (44_status.md R185). -/
inductive ResultOutput where
  | wrAck
  | rdId
  | rdLen
  | rdPayload
  | rdValid
  deriving DecidableEq, Repr

/-- The commands. An observation's `observer` is the clock domain of the logic that samples the output
(44_status.md R186); its `port` is the domain whose output is named. -/
inductive Instr where
  /-- RESET, X format (70_reset_and_hazards.md R221). -/
  | reset
  /-- PUSH, W format with `wr_en = 1` (42_write_port.md R140). -/
  | push (id : Nat) (payload : Payload) (len : Len)
  /-- WR_NOP, W format with `wr_en = 0` (42_write_port.md R145). -/
  | wrNop
  /-- POP, R format with `rd_en = 1` (43_read_port.md R160). -/
  | pop
  /-- RD_NOP, R format with `rd_en = 0` (43_read_port.md R165). -/
  | rdNop
  /-- SIZE: `wr_count` or `rd_count` (44_status.md R180). -/
  | size (port observer : Domain)
  /-- IS_EMPTY: `wr_empty` or `rd_empty` (44_status.md R181). -/
  | isEmpty (port observer : Domain)
  /-- IS_FULL: `wr_full` or `rd_full` (44_status.md R182). -/
  | isFull (port observer : Domain)
  /-- READ_CURSOR: `rd_cursor` (44_status.md R183). -/
  | readCursor (observer : Domain)
  /-- WRITE_CURSOR: `wr_cursor` (44_status.md R184). -/
  | writeCursor (observer : Domain)
  /-- READ_RESULT: `wr_ack`, `rd_id`, `rd_len`, `rd_payload` or `rd_valid` (44_status.md R185). -/
  | readResult (output : ResultOutput) (observer : Domain)
  deriving DecidableEq, Repr

/-- The block's output signals (10_state.md R25, R26). -/
inductive Output where
  | wrAck
  | wrFull
  | wrEmpty
  | wrCount
  | wrCursor
  | rdId
  | rdLen
  | rdPayload
  | rdValid
  | rdEmpty
  | rdFull
  | rdCount
  | rdCursor
  deriving DecidableEq, Repr

/-- A port's input pins at one sampling edge. Bit `i` is unknown (neither 0 nor 1, 30_encoding.md R88) when bit
`i` of `unknown` is set; otherwise its level is bit `i` of `bits`. -/
structure PinWord where
  bits : Nat
  unknown : Nat
  deriving DecidableEq, Repr

/-- What the host presents: the reset pin alone (R220: assertion needs no clock edge), a rising edge of `wr_clk`
or `rd_clk` with `rst` and that port's pins as sampled (30_encoding.md R80), or an observation (R84). -/
inductive Sample where
  | reset (x : PinWord)
  | write (x w : PinWord)
  | read (x r : PinWord)
  | observe (output : Output) (observer : Domain)
  deriving DecidableEq, Repr

/-- The draw annotation of a line (30_encoding.md R89): the first synchronizer stage takes the other domain's
current Gray pointer, keeps its value, or advances by `k` pointer positions. -/
inductive Draw where
  | now
  | old
  | plus (k : Nat)
  deriving DecidableEq, Repr

/-- One thing the host does: present a sample, the synchronizer's draw at that edge given with it, or take the
power away and give it back (60_exceptions.md R210, 70_reset_and_hazards.md R224). -/
inductive HostEvent where
  | sample (s : Sample) (d : Draw)
  | powerOn
  deriving DecidableEq, Repr

end Sys2Proof
end

