-- ==== Sys2Proof/Machine/State.lean ====
section
/-!
DEFINITION. The machine's state as plain data (10_state.md R28 to R39), its reset values (R42), and the reasons a
step can stop (60_exceptions.md R213).
-/

namespace Sys2Proof.Machine

/-- One storage slot's contents: "each holding `{id : ID_W bits, payload : 64 bits}`", no length
(10_state.md R28). -/
structure Slot where
  id : Nat
  payload : Payload
  deriving DecidableEq, Repr

/-- A frame value (00_scope.md R11). -/
structure Frame where
  id : Nat
  len : Len
  payload : Payload
  deriving DecidableEq, Repr

/-- The live slots `mem[0..7]` as (slot number, contents) pairs, strictly rising in the number, every number below 8.
A slot that is not listed holds no value (10_state.md R42). The unit is the slot because "There is no byte, half or
partial access" (20_memory.md R62; log 4). -/
abbrev Memory := List (Nat × Slot)

/-- The value an observation returns (44_status.md R180 to R185), with the output's kind. -/
inductive Observation where
  /-- `wr_count` or `rd_count`. -/
  | count (port : Domain) (v : BitVec 4)
  /-- `wr_empty` or `rd_empty`. -/
  | empty (port : Domain) (v : Bool)
  /-- `wr_full` or `rd_full`. -/
  | full (port : Domain) (v : Bool)
  /-- `wr_cursor` or `rd_cursor`. -/
  | cursor (port : Domain) (v : Index)
  /-- `wr_ack`. -/
  | wrAck (v : Bool)
  /-- `rd_id`. -/
  | rdId (v : Nat)
  /-- `rd_len`. -/
  | rdLen (v : Len)
  /-- `rd_payload`. -/
  | rdPayload (v : Payload)
  /-- `rd_valid`. -/
  | rdValid (v : Bool)
  deriving DecidableEq, Repr

/-- Everything the spec gives the block, and the model's own fields at the end. -/
structure State where
  /-- The build's parameters (00_scope.md R7); no step changes them. -/
  params : Params
  /-- The spec's model-only mark: 0 at power-on, 1 from the first reset (10_state.md R39). -/
  live : Bool
  /-- The write pointer (10_state.md R29). -/
  wbin : Ptr
  /-- Its Gray code (R31). -/
  wgray : Ptr
  /-- The synchronizer `wq[1..SYNC_STAGES]`, stage 1 first (R34). -/
  wq : List Ptr
  /-- The result of the write port's last step (R35). -/
  wrAck : Bool
  /-- The live slots (R28). -/
  mem : Memory
  /-- The read pointer (R32). -/
  rbin : Ptr
  /-- Its Gray code (R33). -/
  rgray : Ptr
  /-- The synchronizer `rq[1..SYNC_STAGES]`, stage 1 first (R34). -/
  rq : List Ptr
  /-- The identifier of the last pop's result (R35). -/
  rdFid : Nat
  /-- The payload of the last pop's result (R35). -/
  rdFpay : Payload
  /-- Was that result a popped frame (R35)? -/
  rdValid : Bool
  /-- The model's own: the synchronizer draw of the step being taken (00_scope.md R10; log 2). -/
  draw : Draw
  /-- The model's own: what the host's last observation returned (60_exceptions.md R212; log 9). -/
  observed : Option Observation
  /-- The model's own: how many resets this state has seen; indexes the free values of slots (log 3). -/
  epoch : Nat
  /-- The model's own: what the host does next, first first (10_state.md R21, R24; log 1). -/
  pending : List HostEvent
  deriving DecidableEq, Repr

/-- No fault exists: "There is no fault in the block (no command faults)" (60_exceptions.md R213). The type is empty,
so that no step can raise one (log 14). -/
inductive Fault : Type
  deriving DecidableEq, Repr

/-- Why the model gives a step no meaning. -/
inductive Refusal where
  /-- Raised by an arm of exec whose instruction has no meaning yet. Safe. No arm raises it. -/
  | notModelled (mnemonic : String)
  /-- `not_reset`: raised by every command but RESET while `live = 0` (10_state.md R39). Safe. -/
  | notReset
  /-- `unknown_input`: raised by the step when a pin that is read is neither 0 nor 1 (30_encoding.md R88). Safe. -/
  | unknownInput
  /-- `cross_domain_read`: raised by an observation made from the other domain (44_status.md R186). Safe. -/
  | crossDomainRead
  /-- `cap_not_8`: raised by every command in a build with another capacity (00_scope.md R8). Safe. -/
  | capNot8
  /-- Raised by every command in a build outside R7's bounds `1 <= ID_W`, `2 <= SYNC_STAGES` (log 5). Safe. -/
  | paramOutOfRange
  /-- Raised by PUSH, WR_NOP, POP and RD_NOP for a draw that is not in Window, which "has no meaning"
  (95_test_vectors.md T3; log 11). Safe. -/
  | drawOutsideWindow
  deriving DecidableEq, Repr

/-- What a command answers. -/
abbrev Result := Host.Outcome State Fault Refusal

/-- The state right after the first reset of a build (10_state.md R42): both pointers, their Gray codes and every
synchronizer stage 0, the result the sentinel's with `rd_valid = 0`, no slot holding a value. -/
def State.resetOf (p : Params) : State where
  params := p
  live := true
  wbin := 0
  wgray := 0
  wq := List.replicate p.syncStages 0
  wrAck := false
  mem := []
  rbin := 0
  rgray := 0
  rq := List.replicate p.syncStages 0
  rdFid := 0
  rdFpay := 0
  rdValid := false
  draw := .now
  observed := none
  epoch := 0
  pending := []

/-- The machine right after reset, at the default parameters `ID_W = 32`, `SYNC_STAGES = 2` (00_scope.md R7). -/
def State.reset : State := State.resetOf Config.defaultParams

end Sys2Proof.Machine
end

