-- ==== Sys2Proof/Machine/Ops.lean ====
section
/-!
DEFINITION. The named operations every meaning is built from: the circular index generator (40_circular_index.md), the
Gray code and the synchronizers (41_gray_counter_cdc.md), the frame storage (20_memory.md), the updates of State, the
RESET step's effect (70_reset_and_hazards.md R221), and the conditions under which a command has a meaning at all.
The block takes no exception (60_exceptions.md R200), so there is no operation for one.
-/

namespace Sys2Proof.Machine

/-! ### circular_index_generator -/

/-- The index of a pointer, `p[2:0]` (40_circular_index.md R100). -/
def ptrIdx (p : Ptr) : Index := p.extractLsb' 0 3

/-- The lap bit of a pointer, `p[3]` (40_circular_index.md R100). -/
def ptrLap (p : Ptr) : BitVec 1 := p.extractLsb' 3 1

/-- `next_idx` (40_circular_index.md R101): a 4-bit sum compared with `CAP`. -/
def nextIdx (i : Index) : Index :=
  let t : BitVec 4 := i.setWidth 4 + 1
  if t = BitVec.ofNat 4 Config.cap then 0 else t.setWidth 3

/-- `next_ptr` (40_circular_index.md R102): the lap bit toggles when the index wraps. -/
def nextPtr (p : Ptr) : Ptr :=
  let wrap : BitVec 1 := if ptrIdx p = BitVec.ofNat 3 (Config.cap - 1) then 1 else 0
  (ptrLap p ^^^ wrap) ++ nextIdx (ptrIdx p)

/-- `dist(a, b) = (b - a) mod 16` (40_circular_index.md R105). -/
def ptrDist (a b : Ptr) : BitVec 4 := b - a

/-! ### gray_counter_cdc -/

/-- `bin2gray` (41_gray_counter_cdc.md R120). -/
def bin2gray (b : Ptr) : Ptr := b ^^^ (b >>> 1)

/-- `gray2bin` (41_gray_counter_cdc.md R121), bit by bit from the top. -/
def gray2bin (g : Ptr) : Ptr :=
  let b3 : BitVec 1 := g.extractLsb' 3 1
  let b2 : BitVec 1 := b3 ^^^ g.extractLsb' 2 1
  let b1 : BitVec 1 := b2 ^^^ g.extractLsb' 1 1
  let b0 : BitVec 1 := b1 ^^^ g.extractLsb' 0 1
  b3 ++ b2 ++ b1 ++ b0

/-- Is the Gray value `g` in `Window(f, src)` (41_gray_counter_cdc.md R123)? -/
def inWindow (f src g : Ptr) : Bool :=
  decide (ptrDist (gray2bin f) (gray2bin g) ≤ ptrDist (gray2bin f) (gray2bin src))

/-- What the first stage, holding `f`, samples of the source `src` under a draw (30_encoding.md R89): none where the draw
is outside `Window(f, src)` (41_gray_counter_cdc.md R123; 95_test_vectors.md T3). An advance of 16 or more positions
is never inside it. -/
def sampled (d : Draw) (f src : Ptr) : Option Ptr :=
  match d with
  | .now => if inWindow f src src then some src else none
  | .old => if inWindow f src f then some f else none
  | .plus k =>
    let g := bin2gray (gray2bin f + BitVec.ofNat 4 k)
    if k < 16 ∧ inWindow f src g = true then some g else none

/-- Stage 1 of a synchronizer. -/
def firstStage (q : List Ptr) : Ptr := q.getD 0 0

/-- Stage `n` of a synchronizer, counted from 1: with `n = SYNC_STAGES` the domain's view of the other pointer
(10_state.md R34). -/
def stage (n : Nat) (q : List Ptr) : Ptr := q.getD (n - 1) 0

/-- One advance of an `n`-stage synchronizer that samples `g`: `q[1] <- g` and `q[k] <- q[k-1]` for `2 <= k <= n`, from
the values before the step (41_gray_counter_cdc.md R123). -/
def shiftIn (n : Nat) (g : Ptr) (q : List Ptr) : List Ptr := g :: q.take (n - 1)

/-! ### Frame storage -/

/-- The contents a slot number is listed with. -/
def Memory.lookup : Memory → Nat → Option Slot
  | [], _ => none
  | (a, v) :: m, i => if a = i then some v else Memory.lookup m i

/-- `MemWrite(i, f)` (00_scope.md R10): the list stays strictly rising, and no other slot changes. -/
def Memory.store : Memory → Nat → Slot → Memory
  | [], i, v => [(i, v)]
  | (a, w) :: m, i, v =>
    if i < a then (i, v) :: (a, w) :: m
    else if i = a then (i, v) :: m
    else (a, w) :: Memory.store m i v

/-- The canonical form: slot numbers strictly rising, each a live slot's. A slot that holds no value is not listed, so no
entry equals what an unlisted slot reads as. -/
def Memory.wf (m : Memory) : Bool :=
  decide (m.Pairwise fun x y => x.1 < y.1) && m.all fun x => decide (x.1 < Config.cap)

/-- The sentinel slot's number, 8 (20_memory.md R61). -/
def sentinelSlot : Fin Config.slots := ⟨8, by decide⟩

/-- The slot number of a cursor. -/
def liveSlot (i : Index) : Fin Config.slots := ⟨i.toNat, Nat.lt_trans i.isLt (by decide)⟩

/-- `SENTINEL`'s identifier and payload (00_scope.md R11). -/
def sentinel : Slot where
  id := 0
  payload := 0

/-- FREE VALUE (log 3): what live slot `i` reads as before anything has been pushed into it. No reachable state reads
it (10_state.md R47). -/
def unwritten (p : Params) (epoch i : Nat) : Slot where
  id := Config.freeId epoch i % 2 ^ p.idW
  payload := Config.freePayload epoch i

/-- `MemRead(i)` (00_scope.md R10): slot 8 is the constant sentinel (10_state.md R28). -/
def memRead (s : State) (i : Fin Config.slots) : Slot :=
  if i = sentinelSlot then sentinel
  else (Memory.lookup s.mem i.val).getD (unwritten s.params s.epoch i.val)

/-! ### Updates of State, one per group of registers that is written together -/

/-- `MemWrite` into a live slot. -/
def State.storeSlot (s : State) (i : Index) (v : Slot) : State :=
  { s with mem := Memory.store s.mem i.toNat v }

/-- The write pointer and its Gray code, always written together (10_state.md R31). -/
def State.setWptr (s : State) (p : Ptr) : State :=
  { s with wbin := p, wgray := bin2gray p }

/-- The read pointer and its Gray code, always written together (10_state.md R33). -/
def State.setRptr (s : State) (p : Ptr) : State :=
  { s with rbin := p, rgray := bin2gray p }

/-- The result of a push (42_write_port.md R140). -/
def State.setWrAck (s : State) (b : Bool) : State := { s with wrAck := b }

/-- The result of a pop (43_read_port.md R160). -/
def State.setResult (s : State) (f : Slot) (valid : Bool) : State :=
  { s with rdFid := f.id, rdFpay := f.payload, rdValid := valid }

/-- The write domain's synchronizer. -/
def State.setWq (s : State) (q : List Ptr) : State := { s with wq := q }

/-- The read domain's synchronizer. -/
def State.setRq (s : State) (q : List Ptr) : State := { s with rq := q }

/-- The value an observation returns to the host. -/
def State.setObserved (s : State) (o : Observation) : State := { s with observed := some o }

/-- The RESET step's effect on both domains (70_reset_and_hazards.md R221): the values of 10_state.md R42, from any
state. The parameters and the host's own fields stay; the slots hold no value, which a fresh `epoch` says. -/
def State.resetBlock (s : State) : State :=
  { State.resetOf s.params with
    draw := s.draw
    observed := s.observed
    epoch := s.epoch + 1
    pending := s.pending }

/-- Power lost and given back (60_exceptions.md R210, 70_reset_and_hazards.md R224): `live = 0`, and no register or slot
holds a value. The register fields hold the reset values, which nothing reads while `live = 0` (log 6). -/
def State.powerCycle (s : State) : State :=
  { State.resetOf s.params with
    live := false
    draw := s.draw
    observed := s.observed
    epoch := s.epoch
    pending := s.pending }

/-! ### When a command has a meaning -/

/-- Are the parameters ones the spec gives a meaning to (00_scope.md R7, R8)? -/
def State.validParams (s : State) : Bool :=
  decide (s.params.cap = Config.cap) && s.params.inRange

/-- May a command other than RESET run: valid parameters, and a reset has come (10_state.md R39)? -/
def State.ready (s : State) : Bool := s.validParams && s.live

/-- A command in a build the spec gives a meaning to; otherwise `cap_not_8` (00_scope.md R8), or R7's bounds. -/
def whenValid (s : State) (r : Result) : Result :=
  if s.params.cap ≠ Config.cap then .refused .capNot8
  else if s.params.inRange = false then .refused .paramOutOfRange
  else r

/-- A command other than RESET: refused `not_reset` before the first reset (10_state.md R39). -/
def whenLive (s : State) (r : Result) : Result :=
  whenValid s (if s.live then r else .refused .notReset)

/-! ### A step of one agent: its effect, and the advance of its synchronizer -/

/-- A write-agent step (42_write_port.md): `SYNC_W` with the step's draw, beside the effect `k` on the rest of the write
domain. The draw is taken from the state before the step (41_gray_counter_cdc.md R123). -/
def writeStep (s : State) (k : State) : Result :=
  whenLive s
    (match sampled s.draw (firstStage s.wq) s.rgray with
     | some g => .next (k.setWq (shiftIn s.params.syncStages g s.wq))
     | none => .refused .drawOutsideWindow)

/-- A read-agent step (43_read_port.md): `SYNC_R` with the step's draw, beside the effect `k` on the rest of the read
domain. -/
def readStep (s : State) (k : State) : Result :=
  whenLive s
    (match sampled s.draw (firstStage s.rq) s.wgray with
     | some g => .next (k.setRq (shiftIn s.params.syncStages g s.rq))
     | none => .refused .drawOutsideWindow)

end Sys2Proof.Machine
end

