-- ==== Sys2Proof/Machine/Flags.lean ====
section
/-!
DEFINITION. The outputs as functions of the state alone (10_state.md R40): each domain's view of the occupancy, its
full and empty flags and its cursor (41_gray_counter_cdc.md R126 to R129, 44_status.md R180 to R185).
-/

namespace Sys2Proof.Machine

/-- True occupancy `occ = dist(rbin, wbin)` (41_gray_counter_cdc.md R126): of the model, no output. -/
def occ (s : State) : BitVec 4 := ptrDist s.rbin s.wbin

/-- `wr_count = dist(gray2bin(wq[N]), wbin)` (R127). -/
def wrCount (s : State) : BitVec 4 := ptrDist (gray2bin (stage s.params.syncStages s.wq)) s.wbin

/-- `rd_count = dist(rbin, gray2bin(rq[N]))` (R128). -/
def rdCount (s : State) : BitVec 4 := ptrDist s.rbin (gray2bin (stage s.params.syncStages s.rq))

/-- `wr_full = (wr_count == 8)` (R129, 44_status.md R182). -/
def wrFull (s : State) : Bool := wrCount s == BitVec.ofNat 4 Config.cap

/-- `rd_full = (rd_count == 8)` (44_status.md R182). -/
def rdFull (s : State) : Bool := rdCount s == BitVec.ofNat 4 Config.cap

/-- `wr_empty = (wr_count == 0)` (44_status.md R181). -/
def wrEmpty (s : State) : Bool := wrCount s == 0

/-- `rd_empty = (rd_count == 0)` (R129, 44_status.md R181). -/
def rdEmpty (s : State) : Bool := rdCount s == 0

/-- `wr_cursor = wbin[2:0]` (44_status.md R184). -/
def wrCursor (s : State) : Index := ptrIdx s.wbin

/-- `rd_cursor = rbin[2:0]` (44_status.md R183). -/
def rdCursor (s : State) : Index := ptrIdx s.rbin

/-- `rd_len = 8`, a constant (10_state.md R40). -/
def rdLen (_ : State) : Len := Config.frameLen

/-- The result frame `{rd_id, rd_len, rd_payload}` (43_read_port.md R160). -/
def resultFrame (s : State) : Frame where
  id := s.rdFid
  len := rdLen s
  payload := s.rdFpay

end Sys2Proof.Machine
end

