-- ==== Sys2Proof/Machine/ReadPort.lean ====
section
/-!
DEFINITION. The meanings of the read port's commands (43_read_port.md).
-/

namespace Sys2Proof.Machine

/-- POP (43_read_port.md R160 to R162): the slot at the captured index when the read view is not empty, the sentinel slot
when it is. -/
def execPop (s : State) : Result :=
  readStep s
    (if rdEmpty s then s.setResult (memRead s sentinelSlot) false
     else ((s.setResult (memRead s (liveSlot (ptrIdx s.rbin))) true).setRptr (nextPtr s.rbin)))

/-- RD_NOP (43_read_port.md R165): only the synchronizer advances. -/
def execRdNop (s : State) : Result := readStep s s

end Sys2Proof.Machine
end

