-- ==== Sys2Proof/Machine/ResetPort.lean ====
section
/-!
DEFINITION. The meaning of RESET (70_reset_and_hazards.md R221, R222).
-/

namespace Sys2Proof.Machine

/-- RESET (70_reset_and_hazards.md R221): one atomic step that writes both domains, from any state, also the first. -/
def execReset (s : State) : Result := whenValid s (.next s.resetBlock)

end Sys2Proof.Machine
end

