-- ==== Sys2Proof/WellFormed.lean ====
section
/-!
DEFINITION. Well-formed commands: every operand fits the field that carries it (30_encoding.md R81). The payload
and the length fit by their types; the identifier must fit `ID_W` bits.
-/

namespace Sys2Proof

/-- Does every operand fit its field? -/
def Instr.wellFormed (p : Params) : Instr → Bool
  | .reset => true
  | .push id _ _ => decide (id < 2 ^ p.idW)
  | .wrNop => true
  | .pop => true
  | .rdNop => true
  | .size _ _ => true
  | .isEmpty _ _ => true
  | .isFull _ _ => true
  | .readCursor _ => true
  | .writeCursor _ => true
  | .readResult _ _ => true

end Sys2Proof
end

