-- ==== Sys2Proof/Decode.lean ====
section
/-!
DEFINITION. Decoding what the host presents (30_encoding.md R80 to R88) and encoding commands (R81 to R86).
The decoder reads the X word first, then the port's word (R85).
-/

namespace Sys2Proof

/-- What the decoder answers: a command, nothing (`rst = 0` with no port edge "selects nothing", R83), or a pin that
is read and is neither 0 nor 1 (R88, refused under the name `unknown_input`). -/
inductive Decoded where
  | instr (i : Instr)
  | nothing
  | unknownInput
  deriving DecidableEq, Repr

/-- One input pin, if it is 0 or 1. -/
def PinWord.readBit (w : PinWord) (i : Nat) : Option Bool :=
  if w.unknown.testBit i then none else some (w.bits.testBit i)

/-- The levels of the `n` pins from `lo` up, whether or not they are known. -/
def PinWord.rawField (w : PinWord) (lo n : Nat) : Nat := (w.bits >>> lo) % 2 ^ n

/-- The `n` pins from `lo` up, if every one of them is 0 or 1. -/
def PinWord.readField (w : PinWord) (lo n : Nat) : Option Nat :=
  if (w.unknown >>> lo) % 2 ^ n = 0 then some (w.rawField lo n) else none

/-- A W word with `rst = 0` (R81, R85, R86): bit 0 is `wr_en`, then `wr_id`, `wr_payload` and `wr_len`. With
`wr_en = 0` the other fields are not read; `wr_len` is never refused (R88). -/
def decodeWrite (p : Params) (w : PinWord) : Decoded :=
  match w.readBit 0 with
  | none => .unknownInput
  | some false => .instr .wrNop
  | some true =>
    match w.readField 1 p.idW, w.readField (p.idW + 1) 64 with
    | some id, some payload =>
      .instr (.push id (BitVec.ofNat 64 payload) (BitVec.ofNat 4 (w.rawField (p.idW + 65) 4)))
    | _, _ => .unknownInput

/-- An R word with `rst = 0` (R82): bit 0 is `rd_en`. -/
def decodeRead (r : PinWord) : Decoded :=
  match r.readBit 0 with
  | none => .unknownInput
  | some false => .instr .rdNop
  | some true => .instr .pop

/-- The X word (R83): `rst = 1` selects RESET and overrides the port's word, `rst = 0` leaves it to decode. -/
def decodeReset (x : PinWord) (port : Decoded) : Decoded :=
  match x.readBit 0 with
  | none => .unknownInput
  | some true => .instr .reset
  | some false => port

/-- The S rows of R85's map: which observation reads the named output. -/
def decodeOutput (o : Output) (observer : Domain) : Instr :=
  match o with
  | .wrAck => .readResult .wrAck observer
  | .wrFull => .isFull .write observer
  | .wrEmpty => .isEmpty .write observer
  | .wrCount => .size .write observer
  | .wrCursor => .writeCursor observer
  | .rdId => .readResult .rdId observer
  | .rdLen => .readResult .rdLen observer
  | .rdPayload => .readResult .rdPayload observer
  | .rdValid => .readResult .rdValid observer
  | .rdEmpty => .isEmpty .read observer
  | .rdFull => .isFull .read observer
  | .rdCount => .size .read observer
  | .rdCursor => .readCursor observer

/-- The decoder (R85). Total: every sample decodes, selects nothing, or shows an unknown pin. -/
def decode (p : Params) : Sample → Decoded
  | .reset x => decodeReset x .nothing
  | .write x w => decodeReset x (decodeWrite p w)
  | .read x r => decodeReset x (decodeRead r)
  | .observe o observer => .instr (decodeOutput o observer)

/-! ### Encoding -/

/-- Pins whose levels are all known. -/
def PinWord.known (n : Nat) : PinWord where
  bits := n
  unknown := 0

/-- The number a PUSH presents on the write port: `{wr_len, wr_payload, wr_id, wr_en = 1}` (R81). -/
def pushWord (p : Params) (id : Nat) (payload : Payload) (len : Len) : Nat :=
  1 + id * 2 + payload.toNat * 2 ^ (p.idW + 1) + len.toNat * 2 ^ (p.idW + 65)

/-- The output of the named port that SIZE reads (R180). -/
def countOutput : Domain → Output
  | .write => .wrCount
  | .read => .rdCount

/-- The output of the named port that IS_EMPTY reads (R181). -/
def emptyOutput : Domain → Output
  | .write => .wrEmpty
  | .read => .rdEmpty

/-- The output of the named port that IS_FULL reads (R182). -/
def fullOutput : Domain → Output
  | .write => .wrFull
  | .read => .rdFull

/-- The output a READ_RESULT names (R185). -/
def resultOutput : ResultOutput → Output
  | .wrAck => .wrAck
  | .rdId => .rdId
  | .rdLen => .rdLen
  | .rdPayload => .rdPayload
  | .rdValid => .rdValid

/-- What the host presents for a command: its word on its port, with `rst = 0` for a port command. -/
def encode (p : Params) : Instr → Sample
  | .reset => .reset (.known 1)
  | .push id payload len => .write (.known 0) (.known (pushWord p id payload len))
  | .wrNop => .write (.known 0) (.known 0)
  | .pop => .read (.known 0) (.known 1)
  | .rdNop => .read (.known 0) (.known 0)
  | .size port observer => .observe (countOutput port) observer
  | .isEmpty port observer => .observe (emptyOutput port) observer
  | .isFull port observer => .observe (fullOutput port) observer
  | .readCursor observer => .observe .rdCursor observer
  | .writeCursor observer => .observe .wrCursor observer
  | .readResult o observer => .observe (resultOutput o) observer

/-! ### The opcode table's words -/

/-- The sample that a word of the opcode table stands for (log 10). The table does not say at which port a word
stands: a word of more than one byte is a W word; a one-bit word is read X first (R85), so 1 is RESET, and 0 is an
X word that selects nothing beside the R word 0. The S rows have no word. -/
def tableSample (nbits w : Nat) : Option Sample :=
  if nbits = 0 then none
  else if 8 < nbits then some (.write (.known 0) (.known w))
  else if w.testBit 0 then some (.reset (.known 1))
  else some (.read (.known 0) (.known 0))

/-- The command the decoder reads from a word of the opcode table, at the default parameters (`ID_W = 32`). -/
def decodeTableWord (nbits w : Nat) : Option Instr :=
  match tableSample nbits w with
  | none => none
  | some s =>
    match decode Config.defaultParams s with
    | .instr i => some i
    | .nothing => none
    | .unknownInput => none

end Sys2Proof
end

