-- ==== Sys2Proof/Machine/Operands.lean ====
section
/-!
DEFINITION. Operand forms: a payload's bytes (20_memory.md R63), and the output an observation names, with the domain it
belongs to and its value (44_status.md R180 to R186).
-/

namespace Sys2Proof.Machine

/-- `payload.byte(k) = payload[8k+7:8k]` (00_scope.md R11). -/
def payloadByte (v : Payload) (k : Nat) : Byte := v.extractLsb' (8 * k) 8

/-- `{b7, b6, b5, b4, b3, b2, b1, b0}` (30_encoding.md R90): the bytes in array order, byte 0 lowest. -/
def packBytes (b0 b1 b2 b3 b4 b5 b6 b7 : Byte) : Payload :=
  b7 ++ b6 ++ b5 ++ b4 ++ b3 ++ b2 ++ b1 ++ b0

/-- The domain an output belongs to (10_state.md R25, R26). -/
def outputDomain : Output → Domain
  | .wrAck => .write
  | .wrFull => .write
  | .wrEmpty => .write
  | .wrCount => .write
  | .wrCursor => .write
  | .rdId => .read
  | .rdLen => .read
  | .rdPayload => .read
  | .rdValid => .read
  | .rdEmpty => .read
  | .rdFull => .read
  | .rdCount => .read
  | .rdCursor => .read

/-- The value of an output: a function of the state alone (10_state.md R40). -/
def outputValue (s : State) : Output → Observation
  | .wrAck => .wrAck s.wrAck
  | .wrFull => .full .write (wrFull s)
  | .wrEmpty => .empty .write (wrEmpty s)
  | .wrCount => .count .write (wrCount s)
  | .wrCursor => .cursor .write (wrCursor s)
  | .rdId => .rdId s.rdFid
  | .rdLen => .rdLen (rdLen s)
  | .rdPayload => .rdPayload s.rdFpay
  | .rdValid => .rdValid s.rdValid
  | .rdEmpty => .empty .read (rdEmpty s)
  | .rdFull => .full .read (rdFull s)
  | .rdCount => .count .read (rdCount s)
  | .rdCursor => .cursor .read (rdCursor s)

/-- A status observation (44_status.md): the host gets the output's value and the block is unchanged; made from the other
domain it is refused `cross_domain_read` (R186). -/
def observe (o : Output) (observer : Domain) (s : State) : Result :=
  whenLive s
    (if outputDomain o = observer then .next (s.setObserved (outputValue s o))
     else .refused .crossDomainRead)

end Sys2Proof.Machine
end

