-- ==== Sys2Proof/Machine/Status.lean ====
section
/-!
DEFINITION. The meanings of the status observations (44_status.md): each is one line over `observe`.
-/

namespace Sys2Proof.Machine

/-- SIZE (44_status.md R180). -/
def execSize (port observer : Domain) (s : State) : Result := observe (countOutput port) observer s

/-- IS_EMPTY (44_status.md R181). -/
def execIsEmpty (port observer : Domain) (s : State) : Result := observe (emptyOutput port) observer s

/-- IS_FULL (44_status.md R182). -/
def execIsFull (port observer : Domain) (s : State) : Result := observe (fullOutput port) observer s

/-- READ_CURSOR (44_status.md R183). -/
def execReadCursor (observer : Domain) (s : State) : Result := observe .rdCursor observer s

/-- WRITE_CURSOR (44_status.md R184). -/
def execWriteCursor (observer : Domain) (s : State) : Result := observe .wrCursor observer s

/-- READ_RESULT (44_status.md R185). -/
def execReadResult (output : ResultOutput) (observer : Domain) (s : State) : Result :=
  observe (resultOutput output) observer s

end Sys2Proof.Machine
end

