-- ==== Sys2Proof/Machine/WritePort.lean ====
section
/-!
DEFINITION. The meanings of the write port's commands (42_write_port.md).
-/

namespace Sys2Proof.Machine

/-- PUSH (42_write_port.md R140, R141). The length is sampled and ignored (R142). The full test, the slot and the next
pointer are all taken from the state before the step. -/
def execPush (id : Nat) (payload : Payload) (_len : Len) (s : State) : Result :=
  writeStep s
    (if wrFull s then s.setWrAck false
     else (((s.storeSlot (ptrIdx s.wbin) (Slot.mk id payload)).setWptr (nextPtr s.wbin)).setWrAck true))

/-- WR_NOP (42_write_port.md R145). -/
def execWrNop (s : State) : Result := writeStep s (s.setWrAck false)

end Sys2Proof.Machine
end

