-- ==== Sys2Proof/Machine/Dispatch.lean ====
section
/-!
DEFINITION. The dispatch: one arm per command of opcode_table.json, each one call of its meaning.
-/

namespace Sys2Proof.Machine

def exec (i : Instr) (s : State) : Host.Outcome State Fault Refusal :=
  match i with
  | .reset => Sys2Proof.Machine.execReset s
  | .push id payload len => Sys2Proof.Machine.execPush id payload len s
  | .wrNop => Sys2Proof.Machine.execWrNop s
  | .pop => Sys2Proof.Machine.execPop s
  | .rdNop => Sys2Proof.Machine.execRdNop s
  | .size port observer => Sys2Proof.Machine.execSize port observer s
  | .isEmpty port observer => Sys2Proof.Machine.execIsEmpty port observer s
  | .isFull port observer => Sys2Proof.Machine.execIsFull port observer s
  | .readCursor observer => Sys2Proof.Machine.execReadCursor observer s
  | .writeCursor observer => Sys2Proof.Machine.execWriteCursor observer s
  | .readResult output observer => Sys2Proof.Machine.execReadResult output observer s

end Sys2Proof.Machine
end

