-- ==== Sys2Proof/Machine/Fetch.lean ====
section
/-!
DEFINITION. What the host does next: taking the first pending event and decoding it (30_encoding.md R80, R85). The block
fetches no instructions (20_memory.md R71); this stands for its ports.
-/

namespace Sys2Proof.Machine

/-- What the next event asks of the machine: a command to run in the state that has taken the event, a state that is
already the next one, or a stop. -/
inductive Fetched where
  | run (i : Instr) (s : State)
  | done (s : State)
  | stop (r : Refusal)
  deriving DecidableEq, Repr

/-- The state once an event with draw `d` has been taken and `rest` is left. -/
def State.taken (s : State) (rest : List HostEvent) (d : Draw) : State :=
  { s with pending := rest, draw := d }

/-- The state once an event that has no draw has been taken. -/
def State.dropEvent (s : State) (rest : List HostEvent) : State := { s with pending := rest }

/-- Takes the next event. With none pending no clock has an edge and nothing changes (60_exceptions.md R210; log 17). An X
word of 0 alone selects nothing (30_encoding.md R83). DESIGN CHOICE (log 23): these and a power cycle are no commands, and
complete also in a build whose parameters the spec gives no meaning to (00_scope.md R8). -/
def fetch (s : State) : Fetched :=
  match s.pending with
  | [] => .done s
  | .powerOn :: rest => .done (s.dropEvent rest).powerCycle
  | .sample smp d :: rest =>
    match decode s.params smp with
    | .instr i => .run i (s.taken rest d)
    | .nothing => .done (s.dropEvent rest)
    | .unknownInput => .stop .unknownInput

/-- The state with a host event put before all others. -/
def State.present (s : State) (e : HostEvent) : State := { s with pending := e :: s.pending }

/-- The state with the opcode table's word presented next, at its port with `rst = 0` (log 10) and the draw a line without
an annotation has (30_encoding.md R89). A row without a word places nothing. -/
def State.placeTableWord (s : State) (nbits w : Nat) : State :=
  match tableSample nbits w with
  | none => s
  | some smp => s.present (.sample smp .now)

end Sys2Proof.Machine
end

