-- ==== Sys2Proof/Machine/Assembler.lean ====
section
/-!
DEFINITION. The spec's program lines and pseudo-instructions (30_encoding.md R89 to R93), as host events. A line is kept as
structured data; its text form is a matter of printing only.
-/

namespace Sys2Proof.Machine

/-- One line of a program (30_encoding.md R89): a reset step, an edge with its command and draw, or `? <output>`. -/
inductive Line where
  | reset
  | push (id : Nat) (payload : Payload) (len : Len) (d : Draw)
  | wrNop (d : Draw)
  | pop (d : Draw)
  | rdNop (d : Draw)
  | observe (o : Output)
  deriving DecidableEq, Repr

/-- The host event of a line; an observation is made in the output's own domain. -/
def Line.event (p : Params) : Line → HostEvent
  | .reset => .sample (encode p .reset) .now
  | .push id payload len d => .sample (encode p (.push id payload len)) d
  | .wrNop d => .sample (encode p .wrNop) d
  | .pop d => .sample (encode p .pop) d
  | .rdNop d => .sample (encode p .rdNop) d
  | .observe o => .sample (.observe o (outputDomain o)) .now

/-- A program: a finite list of lines (70_reset_and_hazards.md R237). -/
def program (p : Params) (ls : List Line) : List HostEvent := ls.map (Line.event p)

/-- `PUSHB id, b0, ..., b7` (30_encoding.md R90). -/
def pushb (id : Nat) (b0 b1 b2 b3 b4 b5 b6 b7 : Byte) : Line :=
  .push id (packBytes b0 b1 b2 b3 b4 b5 b6 b7) 8 .now

/-- `PUSHF f`, the source's `push(Frame)` (30_encoding.md R91, 42_write_port.md R146). -/
def pushf (f : Frame) : Line := .push f.id f.payload f.len .now

/-- `POLL`, its second part (30_encoding.md R92): after `? rd_empty` has read a value, a POP only if that value is 0. The
decision is the host's. -/
def pollAfter (rdEmptyRead : Bool) : List Line := if rdEmptyRead then [] else [.pop .now]

/-- `POLL`, its first part: `? rd_empty`. -/
def pollFirst : Line := .observe .rdEmpty

/-- `SETTLE` (30_encoding.md R93): `SYNC_STAGES` prompt write edges, then `SYNC_STAGES` prompt read edges, with no push and
no pop. -/
def settle (p : Params) : List Line :=
  List.replicate p.syncStages (.wrNop .now) ++ List.replicate p.syncStages (.rdNop .now)

end Sys2Proof.Machine
end

