-- ==== Sys2Proof/Safety.lean ====
section
/-!
DEFINITION. The terms claims are stated in: what a command leaves alone, the block's invariant (10_state.md R43 to R47,
41_gray_counter_cdc.md R125), the queue of live frames, the two error conditions, quiescence, runs and fairness.
-/

namespace Sys2Proof.Machine

/-! ### Frames -/

/-- The write domain's registers are unchanged (10_state.md R36, the slots apart). -/
def WriteRegsSame (s t : State) : Prop :=
  t.wbin = s.wbin ∧ t.wgray = s.wgray ∧ t.wq = s.wq ∧ t.wrAck = s.wrAck

/-- The read domain's registers are unchanged (10_state.md R37). -/
def ReadRegsSame (s t : State) : Prop :=
  t.rbin = s.rbin ∧ t.rgray = s.rgray ∧ t.rq = s.rq ∧
    t.rdFid = s.rdFid ∧ t.rdFpay = s.rdFpay ∧ t.rdValid = s.rdValid

/-- Every slot, the sentinel among them, reads as before. -/
def StorageSame (s t : State) : Prop := ∀ i, memRead t i = memRead s i

/-- The parameters, the mark `live` and the host's fields but the last observation are unchanged. -/
def RestSame (s t : State) : Prop :=
  t.params = s.params ∧ t.live = s.live ∧ t.draw = s.draw ∧ t.epoch = s.epoch ∧ t.pending = s.pending

/-- Everything but the two domains' registers and the slots is unchanged. -/
def HostSame (s t : State) : Prop := RestSame s t ∧ t.observed = s.observed

/-- An observation: only the value the host was given last may have changed. -/
def OnlyObserved (s t : State) (o : Observation) : Prop :=
  t.observed = some o ∧ WriteRegsSame s t ∧ ReadRegsSame s t ∧ StorageSame s t ∧ RestSame s t

/-! ### Kinds of command (30_encoding.md R85) -/

/-- A command of the write port, W format. -/
def isWriteCommand : Instr → Bool
  | .push _ _ _ => true
  | .wrNop => true
  | .reset => false
  | .pop => false
  | .rdNop => false
  | .size _ _ => false
  | .isEmpty _ _ => false
  | .isFull _ _ => false
  | .readCursor _ => false
  | .writeCursor _ => false
  | .readResult _ _ => false

/-- A command of the read port, R format. -/
def isReadCommand : Instr → Bool
  | .pop => true
  | .rdNop => true
  | .reset => false
  | .push _ _ _ => false
  | .wrNop => false
  | .size _ _ => false
  | .isEmpty _ _ => false
  | .isFull _ _ => false
  | .readCursor _ => false
  | .writeCursor _ => false
  | .readResult _ _ => false

/-- The output a status observation names and the domain it is made from, S format. -/
def observation : Instr → Option (Output × Domain)
  | .size port observer => some (countOutput port, observer)
  | .isEmpty port observer => some (emptyOutput port, observer)
  | .isFull port observer => some (fullOutput port, observer)
  | .readCursor observer => some (.rdCursor, observer)
  | .writeCursor observer => some (.wrCursor, observer)
  | .readResult o observer => some (resultOutput o, observer)
  | .reset => none
  | .push _ _ _ => none
  | .wrNop => none
  | .pop => none
  | .rdNop => none

/-! ### The two error conditions (60_exceptions.md R201, R202) -/

/-- OVERFLOW (condition 1) and UNDERFLOW (condition 2). -/
inductive Condition where
  | overflow
  | underflow
  deriving DecidableEq, Repr

/-- The condition a command raises in a state: its cause, as R201 and R202 give it. -/
def raised (i : Instr) (s : State) : Option Condition :=
  match i with
  | .push _ _ _ => if wrFull s then some .overflow else none
  | .pop => if rdEmpty s then some .underflow else none
  | .reset => none
  | .wrNop => none
  | .rdNop => none
  | .size _ _ => none
  | .isEmpty _ _ => none
  | .isFull _ _ => none
  | .readCursor _ => none
  | .writeCursor _ => none
  | .readResult _ _ => none

/-! ### The invariant -/

/-- The distances from the stage farthest from the source to the source, stage by stage, summed without wrapping
(41_gray_counter_cdc.md R125): `dist(q[N], q[N-1]) + ... + dist(q[1], src)`. -/
def chainDist (src : Ptr) : List Ptr → Nat
  | [] => 0
  | g :: q => (ptrDist (gray2bin g) src).toNat + chainDist (gray2bin g) q

/-- What holds of a block that has been reset (10_state.md R43, R44, R47; 41_gray_counter_cdc.md R125). -/
structure BlockInv (s : State) : Prop where
  /-- Parameters the spec gives a meaning to (00_scope.md R7, R8). -/
  valid : s.validParams = true
  /-- `wgray == bin2gray(wbin)` (R43). -/
  wgray : s.wgray = bin2gray s.wbin
  /-- `rgray == bin2gray(rbin)` (R43). -/
  rgray : s.rgray = bin2gray s.rbin
  /-- The write domain's synchronizer has `SYNC_STAGES` stages (R34). -/
  wqLen : s.wq.length = s.params.syncStages
  /-- The read domain's synchronizer has `SYNC_STAGES` stages (R34). -/
  rqLen : s.rq.length = s.params.syncStages
  /-- What the write view lags behind by, and the occupancy, come to at most 8 (R125). -/
  wChain : chainDist s.rbin s.wq + (occ s).toNat ≤ 8
  /-- What the read view lags behind by is at most the occupancy (R125). -/
  rChain : chainDist s.wbin s.rq ≤ (occ s).toNat
  /-- Every live frame's slot holds a value (R47). -/
  listed : ∀ k, k < (occ s).toNat → (Memory.lookup s.mem (ptrIdx (s.rbin + BitVec.ofNat 4 k)).toNat).isSome = true
  /-- The result's identifier has `ID_W` bits (R35). -/
  fid : s.rdFid < 2 ^ s.params.idW

/-- The model's invariant: storage is canonical and holds `ID_W`-bit identifiers, and a block that has been reset is as
`BlockInv` says. -/
structure Inv (s : State) : Prop where
  mem : s.mem.wf = true
  ids : ∀ c ∈ s.mem, c.2.id < 2 ^ s.params.idW
  block : s.live = true → BlockInv s

/-! ### The queue the block stands for -/

/-- The live frames, oldest first: `mem[(rbin + k) mod 8]` for `0 <= k < occ` (10_state.md R47). -/
def contents (s : State) : List Slot :=
  (List.range (occ s).toNat).map fun k => memRead s (liveSlot (ptrIdx (s.rbin + BitVec.ofNat 4 k)))

/-- The source's `push` on its one shared buffer (90_conflicts.md C6): a full buffer is left as it is. -/
def sourcePush (q : List Slot) (f : Slot) : List Slot × Bool :=
  if q.length = Config.cap then (q, false) else (q ++ [f], true)

/-- The source's `pop` (90_conflicts.md C7): an empty buffer answers the sentinel. -/
def sourcePop : List Slot → List Slot × Slot × Bool
  | [] => ([], sentinel, false)
  | f :: q => (q, f, true)

/-! ### Quiescence, runs, fairness -/

/-- Every synchronizer stage holds its source's current value (70_reset_and_hazards.md R236). -/
abbrev Quiescent (s : State) : Prop := (∀ g ∈ s.wq, g = s.rgray) ∧ (∀ g ∈ s.rq, g = s.wgray)

/-- `n` steps, stopping where a step stops. -/
def runSteps : Nat → State → Result
  | 0, s => .next s
  | n + 1, s =>
    match step s with
    | .next t => runSteps n t
    | .fault r => .fault r
    | .refused r => .refused r

/-- The state with a given list of host events to come. -/
def State.withPending (s : State) (es : List HostEvent) : State := { s with pending := es }

/-- The state with a given draw for the next command. -/
def State.withDraw (s : State) (d : Draw) : State := { s with draw := d }

/-- The frame a command has just put into the buffer, if it was an accepted push: `t` is the state after it. -/
def pushedBy (i : Instr) (t : State) : List Slot :=
  match i with
  | .push id payload _ => if t.wrAck then [Slot.mk id payload] else []
  | .reset => []
  | .wrNop => []
  | .pop => []
  | .rdNop => []
  | .size _ _ => []
  | .isEmpty _ _ => []
  | .isFull _ _ => []
  | .readCursor _ => []
  | .writeCursor _ => []
  | .readResult _ _ => []

/-- The frame a command has just taken out, if it was a successful pop: what the result registers hold after it. -/
def poppedBy (i : Instr) (t : State) : List Slot :=
  match i with
  | .pop => if t.rdValid then [Slot.mk t.rdFid t.rdFpay] else []
  | .push _ _ _ => []
  | .reset => []
  | .wrNop => []
  | .rdNop => []
  | .size _ _ => []
  | .isEmpty _ _ => []
  | .isFull _ _ => []
  | .readCursor _ => []
  | .writeCursor _ => []
  | .readResult _ _ => []

/-- What a run of commands has pushed and popped, in order, and where it ended. -/
structure Trace where
  pushed : List Slot
  popped : List Slot
  final : State

/-- Runs commands, each with its draw; none where one of them stops. -/
def trace : List (Instr × Draw) → State → Option Trace
  | [], s => some (Trace.mk [] [] s)
  | (i, d) :: cs, s =>
    match exec i (s.withDraw d) with
    | .next t =>
      match trace cs t with
      | some r => some (Trace.mk (pushedBy i t ++ r.pushed) (poppedBy i t ++ r.popped) r.final)
      | none => none
    | .fault _ => none
    | .refused _ => none

/-- An edge with no command, WR_NOP or RD_NOP, with any draw annotation (30_encoding.md R89, 41_gray_counter_cdc.md R123). -/
inductive IdleEdge where
  | write (d : Draw)
  | read (d : Draw)
  deriving DecidableEq, Repr

/-- The host event of an idle edge. -/
def IdleEdge.event (p : Params) : IdleEdge → HostEvent
  | .write d => (Line.wrNop d).event p
  | .read d => (Line.rdNop d).event p

/-- Is this an edge of the named domain's clock at which, in the state `s`, the synchronizer draws `now`: its first stage takes
the source's present value (41_gray_counter_cdc.md R123), under whichever annotation? -/
def IdleEdge.drawsNow (e : IdleEdge) (port : Domain) (s : State) : Prop :=
  match port, e with
  | .write, .write d => sampled d (firstStage s.wq) s.rgray = some s.rgray
  | .read, .read d => sampled d (firstStage s.rq) s.wgray = some s.wgray
  | .write, .read _ => False
  | .read, .write _ => False

/-- The first `n` events of an endless sequence of idle edges. -/
def idleEvents (p : Params) (f : Nat → IdleEdge) (n : Nat) : List HostEvent :=
  (List.range n).map fun k => (f k).event p

/-- Fairness of the endless sequence `f` of idle edges from the state `s` (70_reset_and_hazards.md R237): it runs on without a
refusal, and each domain's clock steps infinitely often with the draw `now`. Between those edges every draw of Window may be
taken. -/
def FairIdle (s : State) (f : Nat → IdleEdge) : Prop :=
  ∀ (port : Domain) (n : Nat), ∃ m t, n ≤ m ∧ runSteps m (s.withPending (idleEvents s.params f m)) = .next t ∧
    (f m).drawsNow port t

/-- The output signals of 10_state.md R25 and R26. -/
def allOutputs : List Output :=
  [.wrAck, .wrFull, .wrEmpty, .wrCount, .wrCursor, .rdId, .rdLen, .rdPayload, .rdValid, .rdEmpty, .rdFull, .rdCount,
    .rdCursor]

/-- What a run shows where it ends: "the outputs and `occ` there" (70_reset_and_hazards.md R237). -/
def endObservation (s : State) : List Observation × BitVec 4 := (allOutputs.map (outputValue s), occ s)

/-- A run of a program from `s` ends in `t` (70_reset_and_hazards.md R237): `t` is the first quiescent state after the program's
last command, the edges `idle` coming after it. -/
def RunEnds (s : State) (prog idle : List HostEvent) (t : State) : Prop :=
  runSteps (prog.length + idle.length) (s.withPending (prog ++ idle)) = .next t ∧ Quiescent t ∧
    ∀ k u, k < idle.length → runSteps (prog.length + k) (s.withPending (prog ++ idle)) = .next u → ¬ Quiescent u

end Sys2Proof.Machine
end

