-- ==== Sys2Proof/Certificates/Slice0/Obligations.lean ====
section
/-!
DEFINITION. The statements for the provers, from the numbered rules of spec/.
-/

open Sys2Proof Sys2Proof.Machine

/-! ### Decoding and encoding -/

/-- A few words of 95_test_vectors.md T4, T5, T6, T7, T9, S7 and P4 decode to the commands written beside them. -/
def Obligations.SpecWordsDecode : Prop :=
  decode Config.defaultParams (.write (.known 0) (.known 0x10020202020202020200000003)) =
      .instr (.push 0x1 0x0101010101010101#64 8) ∧
    decode Config.defaultParams (.write (.known 0) (.known 0x1e00000000000001fe0000000f)) =
      .instr (.push 0x7 0x00000000000000FF#64 15) ∧
    decode Config.defaultParams (.write (.known 0) (.known 0x10100e0c0a0806040200000247)) =
      .instr (.push 0x123 0x0807060504030201#64 8) ∧
    decode Config.defaultParams (.write (.known 0) (.known 0x10000000000000000000000191)) =
      .instr (.push 0xC8 0#64 8) ∧
    decode Config.defaultParams (.write (.known 0) (.known 0)) = .instr .wrNop ∧
    decode Config.defaultParams (.read (.known 0) (.known 1)) = .instr .pop ∧
    decode Config.defaultParams (.read (.known 0) (.known 0)) = .instr .rdNop ∧
    decode Config.defaultParams (.reset (.known 1)) = .instr .reset

/-- Decoding what a well-formed command is encoded to gives the command back, for every parameter value, every command and
every operand its fields admit (30_encoding.md R81 to R86). -/
def Obligations.DecodeOfEncode : Prop :=
  ∀ (p : Params) (i : Instr), i.wellFormed p = true → decode p (encode p i) = .instr i

/-- The other direction for the one format with operands: every W word with `wr_en = 1` is the word of the push it decodes
to, so no bit of it is dropped (30_encoding.md R81). -/
def Obligations.PushWordHasOneMeaning : Prop :=
  ∀ (p : Params) (w : Nat), w < 2 ^ (p.idW + 69) → w % 2 = 1 →
    ∃ id v len, decode p (.write (.known 0) (.known w)) = .instr (.push id v len) ∧
      id < 2 ^ p.idW ∧ pushWord p id v len = w

/-- "No W, R or X word is illegal and none traps: every value of every field has the meaning given in this file."
(30_encoding.md R87), with the X word (R83) and the R word (R82); and every length value means the same push (R87). -/
def Obligations.NoWordIsIllegal : Prop :=
  (∀ (p : Params) (x w : Nat), decode p (.write (.known x) (.known w)) =
      if x % 2 = 1 then .instr .reset
      else if w % 2 = 1 then
        .instr (.push (w / 2 % 2 ^ p.idW) (BitVec.ofNat 64 (w / 2 ^ (p.idW + 1))) (BitVec.ofNat 4 (w / 2 ^ (p.idW + 65))))
      else .instr .wrNop) ∧
    (∀ (p : Params) (x r : Nat), decode p (.read (.known x) (.known r)) =
      if x % 2 = 1 then .instr .reset else if r % 2 = 1 then .instr .pop else .instr .rdNop) ∧
    (∀ (p : Params) (x : Nat), decode p (.reset (.known x)) = if x % 2 = 1 then .instr .reset else .nothing) ∧
    ∀ (id : Nat) (v : Payload) (len len' : Len) (s : State), exec (.push id v len) s = exec (.push id v len') s

/-- A pin that is read and is neither 0 nor 1 stops the step (30_encoding.md R88): `rst` always; with `rst = 0` the enable,
and with `wr_en = 1` the identifier and the payload; never `wr_len`. That `rst = 1` runs RESET although the other pins are
unknown is the model's reading of R222 beside R88 (log 7); that the reason is `unknown_input` also before the first reset and
in a build with another capacity is the model's order of refusals (log 8). -/
def Obligations.UnknownPinsAreRefused : Prop :=
  ∀ (s : State) (smp : Sample) (d : Draw) (rest : List HostEvent), s.pending = .sample smp d :: rest →
    match smp with
    | .reset x => x.unknown.testBit 0 = true → step s = .refused .unknownInput
    | .write x w =>
      (x.unknown.testBit 0 = true → step s = .refused .unknownInput) ∧
        (x.readBit 0 = some false → w.unknown.testBit 0 = true → step s = .refused .unknownInput) ∧
        (x.readBit 0 = some false → w.readBit 0 = some true →
          (∃ j, 1 ≤ j ∧ j ≤ s.params.idW + 64 ∧ w.unknown.testBit j = true) → step s = .refused .unknownInput) ∧
        (x.readBit 0 = some false → w.readBit 0 = some true →
          (∀ j, 1 ≤ j → j ≤ s.params.idW + 64 → w.unknown.testBit j = false) →
          ∃ len, step s = exec (.push (w.bits / 2 % 2 ^ s.params.idW)
            (BitVec.ofNat 64 (w.bits / 2 ^ (s.params.idW + 1))) len) (s.taken rest d)) ∧
        (x.readBit 0 = some false → w.readBit 0 = some false → step s = exec .wrNop (s.taken rest d)) ∧
        (x.readBit 0 = some true → step s = exec .reset (s.taken rest d))
    | .read x r =>
      (x.unknown.testBit 0 = true → step s = .refused .unknownInput) ∧
        (x.readBit 0 = some false → r.unknown.testBit 0 = true → step s = .refused .unknownInput) ∧
        (x.readBit 0 = some false → r.readBit 0 = some true → step s = exec .pop (s.taken rest d)) ∧
        (x.readBit 0 = some false → r.readBit 0 = some false → step s = exec .rdNop (s.taken rest d)) ∧
        (x.readBit 0 = some true → step s = exec .reset (s.taken rest d))
    | .observe _ _ => step s ≠ .refused .unknownInput

/-- PUSHB packs its bytes in array order, byte 0 lowest (30_encoding.md R90, 20_memory.md R63), and PUSHF presents its frame's
fields (R91): what the host presents decodes to that push. -/
def Obligations.PseudoPushesDecode : Prop :=
  (∀ (p : Params) (id : Nat) (b0 b1 b2 b3 b4 b5 b6 b7 : Byte), id < 2 ^ p.idW →
    ∃ smp v, (pushb id b0 b1 b2 b3 b4 b5 b6 b7).event p = .sample smp .now ∧ decode p smp = .instr (.push id v 8) ∧
      payloadByte v 0 = b0 ∧ payloadByte v 1 = b1 ∧ payloadByte v 2 = b2 ∧ payloadByte v 3 = b3 ∧
      payloadByte v 4 = b4 ∧ payloadByte v 5 = b5 ∧ payloadByte v 6 = b6 ∧ payloadByte v 7 = b7) ∧
    ∀ (p : Params) (f : Frame), f.id < 2 ^ p.idW →
      ∃ smp, (pushf f).event p = .sample smp .now ∧ decode p smp = .instr (.push f.id f.payload f.len)

/-! ### The step -/

/-- When the host's next event decodes to a command, the step is that command run in the state that has taken the event,
its draw with it (00_scope.md R12; that events wait in a list is the model's form, log 1). -/
def Obligations.StepRunsDecodedCommand : Prop :=
  ∀ (s : State) (smp : Sample) (d : Draw) (rest : List HostEvent) (i : Instr),
    s.pending = .sample smp d :: rest → decode s.params smp = .instr i →
    step s = exec i { s with pending := rest, draw := d }

/-- With no event pending no clock has an edge and nothing changes; an X word of 0 selects nothing; a power cycle leaves a
block that no reset has reached (60_exceptions.md R210, 30_encoding.md R83, 70_reset_and_hazards.md R224). That these are
steps at all is the model's choice (log 6, log 17), and so is that they complete in every build, whatever its parameters, for
they are no commands (log 23). -/
def Obligations.StepsWithoutCommand : Prop :=
  (∀ s : State, s.pending = [] → step s = .next s) ∧
    (∀ (s : State) (d : Draw) (rest : List HostEvent),
      s.pending = .sample (.reset (.known 0)) d :: rest → step s = .next { s with pending := rest }) ∧
    ∀ (s : State) (rest : List HostEvent), s.pending = .powerOn :: rest →
      ∃ t, step s = .next t ∧ t.live = false ∧ t.params = s.params ∧ t.pending = rest

/-- "While `rst = 1`, every rising edge of either clock leaves that domain's registers at their reset values"
(70_reset_and_hazards.md R222): whatever the port's word is, the step is the RESET step. -/
def Obligations.ResetOverridesPorts : Prop :=
  ∀ (s : State) (w : Nat) (d : Draw) (rest : List HostEvent) (smp : Sample), s.validParams = true →
    (smp = .write (.known 1) (.known w) ∨ smp = .read (.known 1) (.known w) ∨ smp = .reset (.known 1)) →
    s.pending = .sample smp d :: rest →
    ∃ t, step s = .next t ∧ t.live = true ∧ t.wbin = 0 ∧ t.wgray = 0 ∧ t.wrAck = false ∧ t.rbin = 0 ∧ t.rgray = 0 ∧
      (∀ g ∈ t.wq, g = 0) ∧ (∀ g ∈ t.rq, g = 0) ∧ t.rdFid = 0 ∧ t.rdFpay = 0 ∧ t.rdValid = false ∧
      (∀ i, Memory.lookup t.mem i = none) ∧ t.pending = rest

/-! ### Reset -/

/-- RESET (70_reset_and_hazards.md R221) leaves every register at the value of 10_state.md R42, in every state, also before
the first reset; every view is empty; the sentinel slot is the constant; no live slot holds a value. State.reset is such a
state, with R7's default parameters. -/
def Obligations.ResetLeavesResetValues : Prop :=
  (∀ s : State, s.validParams = true →
    ∃ t, exec .reset s = .next t ∧ t.live = true ∧ t.wbin = 0 ∧ t.wgray = 0 ∧ t.wrAck = false ∧
      t.rbin = 0 ∧ t.rgray = 0 ∧ t.rdFid = 0 ∧ t.rdFpay = 0 ∧ t.rdValid = false ∧
      t.wq.length = s.params.syncStages ∧ t.rq.length = s.params.syncStages ∧
      (∀ g ∈ t.wq, g = 0) ∧ (∀ g ∈ t.rq, g = 0) ∧
      (∀ i, Memory.lookup t.mem i = none) ∧ memRead t sentinelSlot = Slot.mk 0 0 ∧
      occ t = 0 ∧ wrCount t = 0 ∧ rdCount t = 0 ∧ wrEmpty t = true ∧ rdEmpty t = true ∧ wrFull t = false ∧ rdFull t = false ∧
      wrCursor t = 0 ∧ rdCursor t = 0 ∧
      t.params = s.params ∧ t.draw = s.draw ∧ t.observed = s.observed ∧ t.pending = s.pending) ∧
    State.reset.live = true ∧ State.reset.wbin = 0 ∧ State.reset.wgray = 0 ∧ State.reset.wq = [0, 0] ∧
    State.reset.wrAck = false ∧ State.reset.rbin = 0 ∧ State.reset.rgray = 0 ∧ State.reset.rq = [0, 0] ∧
    State.reset.rdFid = 0 ∧ State.reset.rdFpay = 0 ∧ State.reset.rdValid = false ∧ State.reset.mem = [] ∧
    State.reset.params = { cap := 8, idW := 32, syncStages := 2 }

/-- The RESET step forgets everything but what is not the block's: two states that agree on the parameters and the model's
own fields have the same state after it (70_reset_and_hazards.md R221; persistence across resets is a non-goal). -/
def Obligations.ResetForgetsTheBlock : Prop :=
  ∀ s s' : State, s.params = s'.params → s.draw = s'.draw → s.observed = s'.observed → s.epoch = s'.epoch →
    s.pending = s'.pending → exec .reset s = exec .reset s'

/-- "While `live = 0` every register and slot holds no value, and the model refuses every agent step and every output read
(reason `not_reset`)" (10_state.md R39): no command's answer depends on what the registers hold, no slot is listed.
`live` is 0 at power-on and 1 after a reset. -/
def Obligations.NothingRunsBeforeReset : Prop :=
  (∀ s : State, s.powerCycle.live = false ∧ ∀ i, Memory.lookup s.powerCycle.mem i = none) ∧
    (∀ s : State, s.validParams = true → ∃ t, exec .reset s = .next t ∧ t.live = true) ∧
    (∀ (i : Instr) (s : State), s.validParams = true → s.live = false → i ≠ .reset → exec i s = .refused .notReset) ∧
    ∀ (i : Instr) (s s' : State), s.live = false → s'.live = false → s.params = s'.params → s.draw = s'.draw →
      s.observed = s'.observed → s.epoch = s'.epoch → s.pending = s'.pending → exec i s = exec i s'

/-- Every command and observation, RESET among them, is refused `cap_not_8` in a build with another capacity, as "A model refuses
any other `CAP`" (00_scope.md R8). That R8's refusal falls on the commands and not on the host events that are none is the
model's choice (log 23), and so is that this reason comes before every other a command could be refused for, before the first
reset too (log 8). -/
def Obligations.OtherCapacitiesAreRefused : Prop :=
  ∀ (i : Instr) (s : State), s.params.cap ≠ 8 → exec i s = .refused .capNot8

/-! ### Pointers, Gray code, synchronizers -/

/-- `next_idx` (40_circular_index.md R101) and `next_ptr` (R102), with their corner cases and examples. -/
def Obligations.IndexAndPointerAdvance : Prop :=
  (∀ i : Index, (nextIdx i).toNat = if i.toNat + 1 = 8 then 0 else i.toNat + 1) ∧
    (∀ p : Ptr, ptrIdx (nextPtr p) = nextIdx (ptrIdx p) ∧
      ptrLap (nextPtr p) = ptrLap p ^^^ (if ptrIdx p = 7 then 1 else 0)) ∧
    nextIdx 7 = 0 ∧ nextPtr 0b0111#4 = 0b1000#4 ∧ nextPtr 0b1111#4 = 0b0000#4 ∧ nextPtr 5 = 6

/-- `next_ptr` is the increment modulo 16, eight of them return the index and invert the lap, sixteen return the pointer
(40_circular_index.md R103, R104, inferences of the spec), and what `dist` is (R105). -/
def Obligations.PointerArithmetic : Prop :=
  (∀ p : Ptr, nextPtr p = p + 1) ∧
    (∀ p : Ptr, ptrIdx (p + 8) = ptrIdx p ∧ ptrLap (p + 8) = ptrLap p ^^^ 1) ∧
    (∀ p : Ptr, nextPtr^[8] p = p + 8 ∧ nextPtr^[16] p = p) ∧
    (∀ a b : Ptr, (ptrDist a b).toNat = (b.toNat + 16 - a.toNat) % 16) ∧
    (∀ a b : Ptr, ptrDist a b = 0 ↔ a = b) ∧
    (∀ a b : Ptr, ptrDist a b = 8 ↔ ptrIdx a = ptrIdx b ∧ ptrLap a ≠ ptrLap b)

/-- `bin2gray` (41_gray_counter_cdc.md R120) bit by bit, and `gray2bin` (R121), its inverse on all 16 values. -/
def Obligations.GrayCodeBits : Prop :=
  (∀ b : Ptr, (bin2gray b).getLsbD 3 = b.getLsbD 3 ∧
      (bin2gray b).getLsbD 2 = (b.getLsbD 3 ^^ b.getLsbD 2) ∧
      (bin2gray b).getLsbD 1 = (b.getLsbD 2 ^^ b.getLsbD 1) ∧
      (bin2gray b).getLsbD 0 = (b.getLsbD 1 ^^ b.getLsbD 0)) ∧
    (∀ g : Ptr, (gray2bin g).getLsbD 3 = g.getLsbD 3 ∧
      (gray2bin g).getLsbD 2 = ((gray2bin g).getLsbD 3 ^^ g.getLsbD 2) ∧
      (gray2bin g).getLsbD 1 = ((gray2bin g).getLsbD 2 ^^ g.getLsbD 1) ∧
      (gray2bin g).getLsbD 0 = ((gray2bin g).getLsbD 1 ^^ g.getLsbD 0)) ∧
    (∀ b : Ptr, gray2bin (bin2gray b) = b) ∧
    bin2gray 0 = 0 ∧ bin2gray 15 = 0b1000#4 ∧ bin2gray 8 = 0b1100#4 ∧
    gray2bin 0b1000#4 = 15 ∧ gray2bin 0b0110#4 = 4

/-- One advance changes exactly one bit of the Gray pointer (41_gray_counter_cdc.md R122), and the Gray forms of the full
and empty tests are the tests themselves (R129); both are inferences of the spec. -/
def Obligations.GrayFormsOfFullAndEmpty : Prop :=
  (∀ p : Ptr, ∃ k : Fin 4, bin2gray (nextPtr p) = bin2gray p ^^^ (1#4 <<< k.val)) ∧
    (∀ s : State, s.wgray = bin2gray s.wbin →
      (wrFull s = true ↔ s.wgray = stage s.params.syncStages s.wq ^^^ 0b1100#4)) ∧
    ∀ s : State, s.rgray = bin2gray s.rbin →
      (rdEmpty s = true ↔ s.rgray = stage s.params.syncStages s.rq)

/-- Every write step advances `wq` and every read step advances `rq`, whatever the enable is: the first stage takes a value
of `Window`, every other stage the one before it; and every value of `Window` is taken under some draw
(41_gray_counter_cdc.md R123). -/
def Obligations.SynchronizersAdvance : Prop :=
  (∀ (i : Instr) (s t : State), isWriteCommand i = true → exec i s = .next t →
    ∃ p : Ptr, ptrDist (gray2bin (firstStage s.wq)) p ≤ ptrDist (gray2bin (firstStage s.wq)) (gray2bin s.rgray) ∧
      t.wq = bin2gray p :: s.wq.take (s.params.syncStages - 1)) ∧
    (∀ (i : Instr) (s t : State), isReadCommand i = true → exec i s = .next t →
      ∃ p : Ptr, ptrDist (gray2bin (firstStage s.rq)) p ≤ ptrDist (gray2bin (firstStage s.rq)) (gray2bin s.wgray) ∧
        t.rq = bin2gray p :: s.rq.take (s.params.syncStages - 1)) ∧
    (∀ (i : Instr) (s : State) (p : Ptr), isWriteCommand i = true → s.ready = true →
      ptrDist (gray2bin (firstStage s.wq)) p ≤ ptrDist (gray2bin (firstStage s.wq)) (gray2bin s.rgray) →
      ∃ d t, exec i { s with draw := d } = .next t ∧ firstStage t.wq = bin2gray p) ∧
    ∀ (i : Instr) (s : State) (p : Ptr), isReadCommand i = true → s.ready = true →
      ptrDist (gray2bin (firstStage s.rq)) p ≤ ptrDist (gray2bin (firstStage s.rq)) (gray2bin s.wgray) →
      ∃ d t, exec i { s with draw := d } = .next t ∧ firstStage t.rq = bin2gray p

/-- A draw outside `Window` "has no meaning" (95_test_vectors.md T3): the step is refused. -/
def Obligations.DrawsOutsideTheWindowAreRefused : Prop :=
  (∀ (i : Instr) (s : State) (k : Nat), isWriteCommand i = true → s.ready = true → s.draw = .plus k →
    (ptrDist (gray2bin (firstStage s.wq)) (gray2bin s.rgray)).toNat < k → exec i s = .refused .drawOutsideWindow) ∧
    ∀ (i : Instr) (s : State) (k : Nat), isReadCommand i = true → s.ready = true → s.draw = .plus k →
      (ptrDist (gray2bin (firstStage s.rq)) (gray2bin s.wgray)).toNat < k → exec i s = .refused .drawOutsideWindow

/-! ### The write port -/

/-- PUSH (42_write_port.md R140) on a view that is not full, and Overflow (R141) on one that is; the frame of both. -/
def Obligations.PushCompletes : Prop :=
  ∀ (s : State) (g : Ptr) (id : Nat) (v : Payload) (len : Len), s.ready = true →
    sampled s.draw (firstStage s.wq) s.rgray = some g →
    ∃ t, exec (.push id v len) s = .next t ∧ t.wq = g :: s.wq.take (s.params.syncStages - 1) ∧
      ReadRegsSame s t ∧ HostSame s t ∧
      if ptrDist (gray2bin (stage s.params.syncStages s.wq)) s.wbin = 8 then
        t.wrAck = false ∧ t.wbin = s.wbin ∧ t.wgray = s.wgray ∧ StorageSame s t
      else
        t.wrAck = true ∧ t.wbin = s.wbin + 1 ∧ t.wgray = bin2gray (s.wbin + 1) ∧
          memRead t (liveSlot (ptrIdx s.wbin)) = Slot.mk id v ∧
          ∀ j, j ≠ liveSlot (ptrIdx s.wbin) → memRead t j = memRead s j

/-- "the stored frame's length is `FRAME_LEN = 8` for every value of `wr_len`" (42_write_port.md R142): the length changes
nothing, and every result frame reports 8. -/
def Obligations.LengthIsIgnored : Prop :=
  (∀ (s : State) (id : Nat) (v : Payload) (len : Len), s.ready = true →
    (∃ g, sampled s.draw (firstStage s.wq) s.rgray = some g) →
    ∃ t, exec (.push id v len) s = .next t ∧ exec (.push id v 8) s = .next t) ∧
    (∀ s : State, (resultFrame s).len = 8) ∧
    ∀ s : State, s.ready = true → ∃ t, exec (.readResult .rdLen .read) s = .next t ∧ t.observed = some (.rdLen 8)

/-- A pushed frame with the sentinel's bits "is stored and later returned like any other frame, with `rd_valid = 1`"
(42_write_port.md R144). -/
def Obligations.SentinelLikeFrameIsAFrame : Prop :=
  (∀ (s : State) (len : Len) (g : Ptr), s.ready = true → wrFull s = false →
    sampled s.draw (firstStage s.wq) s.rgray = some g →
    ∃ t, exec (.push 0 0 len) s = .next t ∧ t.wrAck = true ∧ memRead t (liveSlot (ptrIdx s.wbin)) = Slot.mk 0 0 ∧
      t.wbin = s.wbin + 1) ∧
    ∀ (s : State) (g : Ptr), s.ready = true → rdEmpty s = false → memRead s (liveSlot (ptrIdx s.rbin)) = Slot.mk 0 0 →
      sampled s.draw (firstStage s.rq) s.wgray = some g →
      ∃ t, exec .pop s = .next t ∧ t.rdValid = true ∧ t.rdFid = 0 ∧ t.rdFpay = 0 ∧ t.rbin = s.rbin + 1

/-- WR_NOP (42_write_port.md R145): `wr_ack <- 0` and the synchronizer's advance, nothing else. -/
def Obligations.WrNopCompletes : Prop :=
  ∀ (s : State) (g : Ptr), s.ready = true → sampled s.draw (firstStage s.wq) s.rgray = some g →
    ∃ t, exec .wrNop s = .next t ∧ t.wrAck = false ∧ t.wq = g :: s.wq.take (s.params.syncStages - 1) ∧
      t.wbin = s.wbin ∧ t.wgray = s.wgray ∧ StorageSame s t ∧ ReadRegsSame s t ∧ HostSame s t

/-! ### The read port -/

/-- POP (43_read_port.md R160) on a view that is not empty, and Underflow-as-sentinel (R161) on one that is; the frame of
both. The slot read is that of the index before the step. -/
def Obligations.PopCompletes : Prop :=
  ∀ (s : State) (g : Ptr), s.ready = true → sampled s.draw (firstStage s.rq) s.wgray = some g →
    ∃ t, exec .pop s = .next t ∧ t.rq = g :: s.rq.take (s.params.syncStages - 1) ∧
      WriteRegsSame s t ∧ StorageSame s t ∧ HostSame s t ∧ rdLen t = 8 ∧
      if ptrDist s.rbin (gray2bin (stage s.params.syncStages s.rq)) = 0 then
        t.rdFid = 0 ∧ t.rdFpay = 0 ∧ t.rdValid = false ∧ t.rbin = s.rbin ∧ t.rgray = s.rgray
      else
        t.rdFid = (memRead s (liveSlot (ptrIdx s.rbin))).id ∧
          t.rdFpay = (memRead s (liveSlot (ptrIdx s.rbin))).payload ∧ t.rdValid = true ∧
          t.rbin = s.rbin + 1 ∧ t.rgray = bin2gray (s.rbin + 1)

/-- RD_NOP (43_read_port.md R165): the synchronizer's advance, nothing else. -/
def Obligations.RdNopCompletes : Prop :=
  ∀ (s : State) (g : Ptr), s.ready = true → sampled s.draw (firstStage s.rq) s.wgray = some g →
    ∃ t, exec .rdNop s = .next t ∧ t.rq = g :: s.rq.take (s.params.syncStages - 1) ∧
      t.rbin = s.rbin ∧ t.rgray = s.rgray ∧ t.rdFid = s.rdFid ∧ t.rdFpay = s.rdFpay ∧ t.rdValid = s.rdValid ∧
      WriteRegsSame s t ∧ StorageSame s t ∧ HostSame s t

/-- `wr_ack` holds until the next write step (42_write_port.md R149), and the result of a POP until the next POP or reset,
"whatever the write domain does meanwhile" (43_read_port.md R166). -/
def Obligations.ResultsAreHeld : Prop :=
  (∀ (i : Instr) (s t : State), exec i s = .next t → isWriteCommand i = false → i ≠ .reset → t.wrAck = s.wrAck) ∧
    (∀ (i : Instr) (s t : State), exec i s = .next t → i ≠ .pop → i ≠ .reset →
      t.rdFid = s.rdFid ∧ t.rdFpay = s.rdFpay ∧ t.rdValid = s.rdValid) ∧
    ∀ (i : Instr) (s t : State), exec i s = .next t → isWriteCommand i = true →
      (t.wrAck = true ↔ ∃ id v len, i = .push id v len ∧ wrFull s = false)

/-! ### The two error conditions -/

/-- OVERFLOW is raised by a PUSH on a full view only, signalled by `wr_ack = 0`, and UNDERFLOW by a POP on an empty view only,
signalled by the sentinel and `rd_valid = 0`; nothing else is recorded (60_exceptions.md R201, R202). -/
def Obligations.ConditionsAreSilent : Prop :=
  (∀ (i : Instr) (s t : State), exec i s = .next t → raised i s = some .overflow →
    (∃ id v len, i = .push id v len) ∧ wrFull s = true ∧ t = { s with wrAck := false, wq := t.wq }) ∧
    (∀ (i : Instr) (s t : State), exec i s = .next t → raised i s = some .underflow →
      i = .pop ∧ rdEmpty s = true ∧ t = { s with rdFid := 0, rdFpay := 0, rdValid := false, rq := t.rq }) ∧
    (∀ (id : Nat) (v : Payload) (len : Len) (s t : State), exec (.push id v len) s = .next t →
      (raised (.push id v len) s = some .overflow ↔ t.wrAck = false)) ∧
    ∀ s t : State, exec .pop s = .next t → (raised .pop s = some .underflow ↔ t.rdValid = false)

/-! ### Status observations -/

/-- SIZE (44_status.md R180): the host gets the named port's view and nothing else changes; the corner cases. -/
def Obligations.SizeCompletes : Prop :=
  (∀ (s : State) (port : Domain), s.ready = true →
    ∃ t, exec (.size port port) s = .next t ∧ OnlyObserved s t (.count port (match port with
      | .write => ptrDist (gray2bin (stage s.params.syncStages s.wq)) s.wbin
      | .read => ptrDist s.rbin (gray2bin (stage s.params.syncStages s.rq))))) ∧
    ∀ s : State, Inv s → s.live = true →
      (rdCount s).toNat ≤ (occ s).toNat ∧ (occ s).toNat ≤ (wrCount s).toNat ∧ (wrCount s).toNat ≤ 8 ∧
      (Quiescent s → wrCount s = occ s ∧ rdCount s = occ s)

/-- IS_EMPTY (44_status.md R181): the named port's flag; `rd_empty = 0` guarantees the next POP a frame, and `wr_empty = 1`
implies `occ = 0`; the other two can hold of a view that lags. -/
def Obligations.IsEmptyCompletes : Prop :=
  (∀ (s : State) (port : Domain), s.ready = true →
    ∃ t, exec (.isEmpty port port) s = .next t ∧ OnlyObserved s t (.empty port (match port with
      | .write => decide (wrCount s = 0)
      | .read => decide (rdCount s = 0)))) ∧
    (∀ s t : State, rdEmpty s = false → exec .pop s = .next t → t.rdValid = true) ∧
    (∀ s : State, Inv s → s.live = true → wrEmpty s = true → occ s = 0) ∧
    (∃ s : State, Inv s ∧ s.live = true ∧ rdEmpty s = true ∧ 0 < (occ s).toNat) ∧
    (∃ s : State, Inv s ∧ s.live = true ∧ wrEmpty s = false ∧ occ s = 0) ∧
    rdEmpty State.reset = true ∧ wrEmpty State.reset = true

/-- IS_FULL (44_status.md R182): the named port's flag; `wr_full = 0` guarantees the next PUSH is accepted, and
`rd_full = 1` implies `occ = 8`; a write view that lags can be full while a slot is free. -/
def Obligations.IsFullCompletes : Prop :=
  (∀ (s : State) (port : Domain), s.ready = true →
    ∃ t, exec (.isFull port port) s = .next t ∧ OnlyObserved s t (.full port (match port with
      | .write => decide (wrCount s = 8)
      | .read => decide (rdCount s = 8)))) ∧
    (∀ (s t : State) (id : Nat) (v : Payload) (len : Len), wrFull s = false → exec (.push id v len) s = .next t →
      t.wrAck = true) ∧
    (∃ s : State, Inv s ∧ s.live = true ∧ wrFull s = true ∧ (occ s).toNat < 8) ∧
    ∀ s : State, Inv s → s.live = true → rdFull s = true → occ s = 8

/-- READ_CURSOR (44_status.md R183) and WRITE_CURSOR (R184): bits 2 to 0 of the pointers. -/
def Obligations.CursorsComplete : Prop :=
  ∀ s : State, s.ready = true →
    (∃ t, exec (.readCursor .read) s = .next t ∧ OnlyObserved s t (.cursor .read (BitVec.ofNat 3 s.rbin.toNat))) ∧
      ∃ t, exec (.writeCursor .write) s = .next t ∧ OnlyObserved s t (.cursor .write (BitVec.ofNat 3 s.wbin.toNat))

/-- READ_RESULT (44_status.md R185): the registers of the two result interfaces, and the constant length; the values after
reset. -/
def Obligations.ReadResultCompletes : Prop :=
  (∀ s : State, s.ready = true →
    (∃ t, exec (.readResult .wrAck .write) s = .next t ∧ OnlyObserved s t (.wrAck s.wrAck)) ∧
      (∃ t, exec (.readResult .rdId .read) s = .next t ∧ OnlyObserved s t (.rdId s.rdFid)) ∧
      (∃ t, exec (.readResult .rdLen .read) s = .next t ∧ OnlyObserved s t (.rdLen 8)) ∧
      (∃ t, exec (.readResult .rdPayload .read) s = .next t ∧ OnlyObserved s t (.rdPayload s.rdFpay)) ∧
      ∃ t, exec (.readResult .rdValid .read) s = .next t ∧ OnlyObserved s t (.rdValid s.rdValid)) ∧
    ∀ s t : State, exec .reset s = .next t →
      t.wrAck = false ∧ t.rdValid = false ∧ resultFrame t = { id := 0, len := 8, payload := 0 }

/-- "the model gives an output observed from the other domain no meaning (refuse, reason `cross_domain_read`)"
(44_status.md R186). -/
def Obligations.CrossDomainReadsAreRefused : Prop :=
  ∀ (i : Instr) (o : Output) (observer : Domain) (s : State), observation i = some (o, observer) → s.ready = true →
    (outputDomain o ≠ observer → exec i s = .refused .crossDomainRead) ∧
      (outputDomain o = observer → ∃ t, exec i s = .next t ∧ OnlyObserved s t (outputValue s o))

/-! ### The whole machine -/

/-- Every command completes in every state after reset, whatever the other agent has done: a draw that is prompt or late is
always in the window (60_exceptions.md R200, R213; 42_write_port.md R148). -/
def Obligations.EveryCommandCompletes : Prop :=
  ∀ (i : Instr) (s : State), s.ready = true → (s.draw = .now ∨ s.draw = .old) →
    (∀ o observer, observation i = some (o, observer) → outputDomain o = observer) →
    ∃ t, exec i s = .next t

/-- `wbin` changes only at an accepted push and reset, `rbin` only at a successful pop and reset (10_state.md R45). -/
def Obligations.PointersMoveOnlyOnSuccess : Prop :=
  (∀ (i : Instr) (s t : State), exec i s = .next t → t.wbin ≠ s.wbin →
    i = .reset ∨ ∃ id v len, i = .push id v len ∧ wrFull s = false ∧ t.wrAck = true) ∧
    ∀ (i : Instr) (s t : State), exec i s = .next t → t.rbin ≠ s.rbin →
      i = .reset ∨ i = .pop ∧ rdEmpty s = false ∧ t.rdValid = true

/-- A write step writes only the write domain and the live slots, a read step only the read domain; and each reads of the
other only its Gray pointer and, for the read agent, the slots (10_state.md R23). -/
def Obligations.DomainsAreIsolated : Prop :=
  (∀ (i : Instr) (s t : State), isWriteCommand i = true → exec i s = .next t →
    ReadRegsSame s t ∧ memRead t sentinelSlot = memRead s sentinelSlot ∧ HostSame s t) ∧
    (∀ (i : Instr) (s t : State), isReadCommand i = true → exec i s = .next t →
      WriteRegsSame s t ∧ StorageSame s t ∧ HostSame s t) ∧
    (∀ (i : Instr) (s s' t t' : State), isWriteCommand i = true → WriteRegsSame s s' → s'.mem = s.mem →
      s'.rgray = s.rgray → s'.params = s.params → s'.draw = s.draw →
      exec i s = .next t → exec i s' = .next t' → WriteRegsSame t t' ∧ t'.mem = t.mem) ∧
    ∀ (i : Instr) (s s' t t' : State), isReadCommand i = true → ReadRegsSame s s' → StorageSame s s' →
      s'.wgray = s.wgray → s'.params = s.params → s'.draw = s.draw →
      exec i s = .next t → exec i s' = .next t' → ReadRegsSame t t'

/-- The invariant holds in the state after reset, at every parameter value the spec gives a meaning to. -/
def Obligations.ResetMeetsTheInvariant : Prop :=
  Inv State.reset ∧ ∀ p : Params, p.cap = 8 → 1 ≤ p.idW → 2 ≤ p.syncStages → Inv (State.resetOf p)

/-- The invariant (10_state.md R43, R44, R47; 41_gray_counter_cdc.md R125) is kept by every step, from every state. -/
def Obligations.StepKeepsTheInvariant : Prop :=
  ∀ s t : State, Inv s → step s = .next t → Inv t

/-- Every step keeps the storage in its canonical form and the parameters as they are, and the sentinel slot is the constant
(10_state.md R28), from every state. -/
def Obligations.StepKeepsStorageCanonical : Prop :=
  ∀ s t : State, s.mem.wf = true → step s = .next t →
    t.mem.wf = true ∧ t.params = s.params ∧ memRead t sentinelSlot = Slot.mk 0 0

/-- In every state that meets the invariant the views are conservative: `0 <= rd_count <= occ <= wr_count <= 8`
(10_state.md R44), so `wr_full = 0` implies `occ < 8` and `rd_empty = 0` implies `occ > 0` (41_gray_counter_cdc.md R130). -/
def Obligations.ViewsAreConservative : Prop :=
  ∀ s : State, Inv s → s.live = true →
    (rdCount s).toNat ≤ (occ s).toNat ∧ (occ s).toNat ≤ (wrCount s).toNat ∧ (wrCount s).toNat ≤ 8 ∧
      (wrFull s = false → (occ s).toNat < 8) ∧ (rdEmpty s = false → 0 < (occ s).toNat) ∧
      s.wgray = bin2gray s.wbin ∧ s.rgray = bin2gray s.rbin

/-- The ordering of the synchronizer chains (41_gray_counter_cdc.md R125): the distances stage by stage come, without
wrapping, to the distance from the view to the source, which is at most `8 - occ` in the write domain and `occ` in the
read domain. -/
def Obligations.SynchronizerChainsAreOrdered : Prop :=
  ∀ s : State, Inv s → s.live = true →
    chainDist s.rbin s.wq = (ptrDist (gray2bin (stage s.params.syncStages s.wq)) s.rbin).toNat ∧
      chainDist s.rbin s.wq + (occ s).toNat ≤ 8 ∧
      chainDist s.wbin s.rq = (ptrDist (gray2bin (stage s.params.syncStages s.rq)) s.wbin).toNat ∧
      chainDist s.wbin s.rq ≤ (occ s).toNat

/-- A favourable view is stable (41_gray_counter_cdc.md R131): no command of the other domain and no observation changes a
view, so `wr_full` and `rd_empty` read between two edges still hold at the next edge; a synchronizer advance only lowers
`wr_count` and only raises `rd_count`; and what a PUSH or a POP does to its count is what the advance alone does, and 1 more
for an accepted push, 1 less for a successful pop. -/
def Obligations.FavourableViewsAreStable : Prop :=
  (∀ (cs : List (Instr × Draw)) (s : State) (r : Trace),
    (∀ c ∈ cs, isWriteCommand c.1 = false ∧ c.1 ≠ .reset) → trace cs s = some r →
    wrCount r.final = wrCount s ∧ wrFull r.final = wrFull s) ∧
    (∀ (cs : List (Instr × Draw)) (s : State) (r : Trace),
      (∀ c ∈ cs, isReadCommand c.1 = false ∧ c.1 ≠ .reset) → trace cs s = some r →
      rdCount r.final = rdCount s ∧ rdEmpty r.final = rdEmpty s) ∧
    (∀ s t : State, Inv s → s.live = true → exec .wrNop s = .next t → (wrCount t).toNat ≤ (wrCount s).toNat) ∧
    (∀ s t : State, Inv s → s.live = true → exec .rdNop s = .next t → (rdCount s).toNat ≤ (rdCount t).toNat) ∧
    (∀ (s t n : State) (id : Nat) (v : Payload) (len : Len), Inv s → s.live = true →
      exec .wrNop s = .next n → exec (.push id v len) s = .next t →
      (wrCount t).toNat = (wrCount n).toNat + if t.wrAck then 1 else 0) ∧
    ∀ s t n : State, Inv s → s.live = true → exec .rdNop s = .next n → exec .pop s = .next t →
      (rdCount t).toNat + (if t.rdValid then 1 else 0) = (rdCount n).toNat

/-- A pop that returns a frame reads a slot that holds a pushed value, never a free one (10_state.md R47). -/
def Obligations.PopsReadPushedSlots : Prop :=
  ∀ s t : State, Inv s → exec .pop s = .next t → t.rdValid = true →
    ∃ f, Memory.lookup s.mem (ptrIdx s.rbin).toNat = some f ∧ t.rdFid = f.id ∧ t.rdFpay = f.payload ∧
      f.id < 2 ^ s.params.idW

/-- The block is a queue (10_state.md R47, 20_memory.md R67, R68): an accepted push appends its frame to the live frames, a
successful pop takes the oldest and returns it, RESET leaves none, and no other command changes them. -/
def Obligations.CommandsActOnTheQueue : Prop :=
  ∀ (i : Instr) (s t : State), Inv s → i.wellFormed s.params = true → exec i s = .next t →
    (i = .reset → contents t = []) ∧
      (i ≠ .reset → poppedBy i t ++ contents t = contents s ++ pushedBy i t) ∧
      (i = .pop → t.rdValid = false → contents t = contents s)

/-- Strict FIFO (20_memory.md R70): over any run of commands without a reset, with any draws, from any state that meets the
invariant, what was popped and what is left are what was there and what was pushed; from an empty buffer the `k`-th
successful pop returns the frame of the `k`-th accepted push. -/
def Obligations.FramesLeaveInPushOrder : Prop :=
  ∀ (cs : List (Instr × Draw)) (s : State) (r : Trace), Inv s → s.live = true →
    (∀ c ∈ cs, c.1 ≠ .reset ∧ c.1.wellFormed s.params = true) → trace cs s = some r →
    r.popped ++ contents r.final = contents s ++ r.pushed ∧
      (contents s = [] → ∀ k, k < r.popped.length → r.popped[k]? = r.pushed[k]?)

/-- Neither agent's outcome depends on the order of two simultaneous steps (60_exceptions.md R206): a write command and a read
command, each with its own draw, leave the same pointers, results, slots and views in both orders. Only the synchronizers'
first stages may differ, which sample the other pointer before or after its move. -/
def Obligations.SimultaneousOutcomesAgree : Prop :=
  ∀ (iw ir : Instr) (dw dr : Draw) (s a b t t' : State), Inv s → s.live = true →
    isWriteCommand iw = true → isReadCommand ir = true →
    exec iw (s.withDraw dw) = .next a → exec ir (a.withDraw dr) = .next t →
    exec ir (s.withDraw dr) = .next b → exec iw (b.withDraw dw) = .next t' →
    t.wbin = t'.wbin ∧ t.wgray = t'.wgray ∧ t.wrAck = t'.wrAck ∧ t.rbin = t'.rbin ∧ t.rgray = t'.rgray ∧
      t.rdFid = t'.rdFid ∧ t.rdFpay = t'.rdFpay ∧ t.rdValid = t'.rdValid ∧ t.mem = t'.mem ∧
      t.wq.tail = t'.wq.tail ∧ t.rq.tail = t'.rq.tail ∧ wrCount t = wrCount t' ∧ rdCount t = rdCount t'

/-- In a quiescent state "the block matches the source's single-context buffer exactly" (70_reset_and_hazards.md R236): a
push and a pop do to the live frames, and answer, what the source's operations do (90_conflicts.md C6, C7). -/
def Obligations.QuiescentBlockIsTheSourceBuffer : Prop :=
  ∀ s t : State, Inv s → s.live = true → Quiescent s →
    (∀ (id : Nat) (v : Payload) (len : Len), exec (.push id v len) s = .next t →
      (contents t, t.wrAck) = sourcePush (contents s) (Slot.mk id v)) ∧
      (exec .pop s = .next t → (contents t, Slot.mk t.rdFid t.rdFpay, t.rdValid) = sourcePop (contents s))

/-- SETTLE reaches a quiescent state from any state after reset, and loses no frame (30_encoding.md R93,
70_reset_and_hazards.md R236). -/
def Obligations.SettleReachesQuiescence : Prop :=
  ∀ (s : State) (rest : List HostEvent), Inv s → s.live = true →
    ∃ t, runSteps (2 * s.params.syncStages) (s.withPending (program s.params (settle s.params) ++ rest)) = .next t ∧
      Quiescent t ∧ t.pending = rest ∧ contents t = contents s ∧ wrCount t = occ s ∧ rdCount t = occ s ∧
      t.wbin = s.wbin ∧ t.rbin = s.rbin ∧ t.rdFid = s.rdFid ∧ t.rdFpay = s.rdFpay ∧ t.rdValid = s.rdValid

/-- Push-to-pop latency (70_reset_and_hazards.md R227): after a push into an empty quiescent block, a pop returns that frame
after `N` prompt read edges, and the sentinel after fewer, whatever the draws. -/
def Obligations.PushReachesReaderAfterStages : Prop :=
  ∀ (s a : State) (id : Nat) (v : Payload) (len : Len), Inv s → s.live = true → Quiescent s → contents s = [] →
    id < 2 ^ s.params.idW → exec (.push id v len) s = .next a →
    (∃ r, trace (List.replicate s.params.syncStages (.rdNop, .now) ++ [(.pop, .now)]) a = some r ∧
      r.popped = [Slot.mk id v]) ∧
      ∀ (ds : List Draw) (d : Draw) (r : Trace), ds.length < s.params.syncStages →
        trace (ds.map (fun e => (Instr.rdNop, e)) ++ [(.pop, d)]) a = some r → r.popped = [] ∧ r.final.rdValid = false

/-- Pop-to-push latency (70_reset_and_hazards.md R228): after a pop from a full quiescent block, a push is accepted after `N`
prompt write edges, and rejected after fewer, whatever the draws, though a slot is free. -/
def Obligations.PopReachesWriterAfterStages : Prop :=
  ∀ (s a : State) (id : Nat) (v : Payload) (len : Len), Inv s → s.live = true → Quiescent s → occ s = 8 →
    exec .pop s = .next a →
    (∃ r, trace (List.replicate s.params.syncStages (.wrNop, .now) ++ [(.push id v len, .now)]) a = some r ∧
      r.final.wrAck = true ∧ r.pushed = [Slot.mk id v]) ∧
      ∀ (ds : List Draw) (d : Draw) (r : Trace), ds.length < s.params.syncStages →
        trace (ds.map (fun e => (Instr.wrNop, e)) ++ [(.push id v len, d)]) a = some r →
        r.final.wrAck = false ∧ r.pushed = [] ∧ occ r.final = 7

/-- Under the fairness of 70_reset_and_hazards.md R237 every run of a program ends, and what it shows there: whatever endless
sequence of idle edges follows that is not refused and in which each domain steps infinitely often with the draw `now`, the
other draws being any of Window, a finite beginning of it leads to the first quiescent state, the frames and the last pop's
result are as the program left them, and both counts are the occupancy. -/
def Obligations.FairRunsEnd : Prop :=
  ∀ (s u : State) (prog : List HostEvent) (f : Nat → IdleEdge), Inv s →
    runSteps prog.length (s.withPending prog) = .next u → u.live = true → FairIdle u f →
    ∃ n t, RunEnds s prog (idleEvents s.params f n) t ∧ contents t = contents u ∧
      (endObservation t).2 = occ u ∧ Observation.count .write (occ u) ∈ (endObservation t).1 ∧
      Observation.count .read (occ u) ∈ (endObservation t).1 ∧ Observation.rdId u.rdFid ∈ (endObservation t).1 ∧
      Observation.rdPayload u.rdFpay ∈ (endObservation t).1 ∧ Observation.rdValid u.rdValid ∈ (endObservation t).1
end

