-- ==== Sys2Proof/Laws/State.lean ====
section
/-!
SUPPORT. One lemma per field per update of State, so that no proof unfolds a record update.
-/

namespace Sys2Proof.Machine

variable (s : State)

/-! ### State.storeSlot -/

@[simp] theorem State.storeSlot_params (i : Index) (v : Slot) : (s.storeSlot i v).params = s.params := rfl
@[simp] theorem State.storeSlot_live (i : Index) (v : Slot) : (s.storeSlot i v).live = s.live := rfl
@[simp] theorem State.storeSlot_wbin (i : Index) (v : Slot) : (s.storeSlot i v).wbin = s.wbin := rfl
@[simp] theorem State.storeSlot_wgray (i : Index) (v : Slot) : (s.storeSlot i v).wgray = s.wgray := rfl
@[simp] theorem State.storeSlot_wq (i : Index) (v : Slot) : (s.storeSlot i v).wq = s.wq := rfl
@[simp] theorem State.storeSlot_wrAck (i : Index) (v : Slot) : (s.storeSlot i v).wrAck = s.wrAck := rfl
@[simp] theorem State.storeSlot_mem (i : Index) (v : Slot) : (s.storeSlot i v).mem = Memory.store s.mem i.toNat v := rfl
@[simp] theorem State.storeSlot_rbin (i : Index) (v : Slot) : (s.storeSlot i v).rbin = s.rbin := rfl
@[simp] theorem State.storeSlot_rgray (i : Index) (v : Slot) : (s.storeSlot i v).rgray = s.rgray := rfl
@[simp] theorem State.storeSlot_rq (i : Index) (v : Slot) : (s.storeSlot i v).rq = s.rq := rfl
@[simp] theorem State.storeSlot_rdFid (i : Index) (v : Slot) : (s.storeSlot i v).rdFid = s.rdFid := rfl
@[simp] theorem State.storeSlot_rdFpay (i : Index) (v : Slot) : (s.storeSlot i v).rdFpay = s.rdFpay := rfl
@[simp] theorem State.storeSlot_rdValid (i : Index) (v : Slot) : (s.storeSlot i v).rdValid = s.rdValid := rfl
@[simp] theorem State.storeSlot_draw (i : Index) (v : Slot) : (s.storeSlot i v).draw = s.draw := rfl
@[simp] theorem State.storeSlot_observed (i : Index) (v : Slot) : (s.storeSlot i v).observed = s.observed := rfl
@[simp] theorem State.storeSlot_epoch (i : Index) (v : Slot) : (s.storeSlot i v).epoch = s.epoch := rfl
@[simp] theorem State.storeSlot_pending (i : Index) (v : Slot) : (s.storeSlot i v).pending = s.pending := rfl

/-! ### State.setWptr -/

@[simp] theorem State.setWptr_params (p : Ptr) : (s.setWptr p).params = s.params := rfl
@[simp] theorem State.setWptr_live (p : Ptr) : (s.setWptr p).live = s.live := rfl
@[simp] theorem State.setWptr_wbin (p : Ptr) : (s.setWptr p).wbin = p := rfl
@[simp] theorem State.setWptr_wgray (p : Ptr) : (s.setWptr p).wgray = bin2gray p := rfl
@[simp] theorem State.setWptr_wq (p : Ptr) : (s.setWptr p).wq = s.wq := rfl
@[simp] theorem State.setWptr_wrAck (p : Ptr) : (s.setWptr p).wrAck = s.wrAck := rfl
@[simp] theorem State.setWptr_mem (p : Ptr) : (s.setWptr p).mem = s.mem := rfl
@[simp] theorem State.setWptr_rbin (p : Ptr) : (s.setWptr p).rbin = s.rbin := rfl
@[simp] theorem State.setWptr_rgray (p : Ptr) : (s.setWptr p).rgray = s.rgray := rfl
@[simp] theorem State.setWptr_rq (p : Ptr) : (s.setWptr p).rq = s.rq := rfl
@[simp] theorem State.setWptr_rdFid (p : Ptr) : (s.setWptr p).rdFid = s.rdFid := rfl
@[simp] theorem State.setWptr_rdFpay (p : Ptr) : (s.setWptr p).rdFpay = s.rdFpay := rfl
@[simp] theorem State.setWptr_rdValid (p : Ptr) : (s.setWptr p).rdValid = s.rdValid := rfl
@[simp] theorem State.setWptr_draw (p : Ptr) : (s.setWptr p).draw = s.draw := rfl
@[simp] theorem State.setWptr_observed (p : Ptr) : (s.setWptr p).observed = s.observed := rfl
@[simp] theorem State.setWptr_epoch (p : Ptr) : (s.setWptr p).epoch = s.epoch := rfl
@[simp] theorem State.setWptr_pending (p : Ptr) : (s.setWptr p).pending = s.pending := rfl

/-! ### State.setRptr -/

@[simp] theorem State.setRptr_params (p : Ptr) : (s.setRptr p).params = s.params := rfl
@[simp] theorem State.setRptr_live (p : Ptr) : (s.setRptr p).live = s.live := rfl
@[simp] theorem State.setRptr_wbin (p : Ptr) : (s.setRptr p).wbin = s.wbin := rfl
@[simp] theorem State.setRptr_wgray (p : Ptr) : (s.setRptr p).wgray = s.wgray := rfl
@[simp] theorem State.setRptr_wq (p : Ptr) : (s.setRptr p).wq = s.wq := rfl
@[simp] theorem State.setRptr_wrAck (p : Ptr) : (s.setRptr p).wrAck = s.wrAck := rfl
@[simp] theorem State.setRptr_mem (p : Ptr) : (s.setRptr p).mem = s.mem := rfl
@[simp] theorem State.setRptr_rbin (p : Ptr) : (s.setRptr p).rbin = p := rfl
@[simp] theorem State.setRptr_rgray (p : Ptr) : (s.setRptr p).rgray = bin2gray p := rfl
@[simp] theorem State.setRptr_rq (p : Ptr) : (s.setRptr p).rq = s.rq := rfl
@[simp] theorem State.setRptr_rdFid (p : Ptr) : (s.setRptr p).rdFid = s.rdFid := rfl
@[simp] theorem State.setRptr_rdFpay (p : Ptr) : (s.setRptr p).rdFpay = s.rdFpay := rfl
@[simp] theorem State.setRptr_rdValid (p : Ptr) : (s.setRptr p).rdValid = s.rdValid := rfl
@[simp] theorem State.setRptr_draw (p : Ptr) : (s.setRptr p).draw = s.draw := rfl
@[simp] theorem State.setRptr_observed (p : Ptr) : (s.setRptr p).observed = s.observed := rfl
@[simp] theorem State.setRptr_epoch (p : Ptr) : (s.setRptr p).epoch = s.epoch := rfl
@[simp] theorem State.setRptr_pending (p : Ptr) : (s.setRptr p).pending = s.pending := rfl

/-! ### State.setWrAck -/

@[simp] theorem State.setWrAck_params (b : Bool) : (s.setWrAck b).params = s.params := rfl
@[simp] theorem State.setWrAck_live (b : Bool) : (s.setWrAck b).live = s.live := rfl
@[simp] theorem State.setWrAck_wbin (b : Bool) : (s.setWrAck b).wbin = s.wbin := rfl
@[simp] theorem State.setWrAck_wgray (b : Bool) : (s.setWrAck b).wgray = s.wgray := rfl
@[simp] theorem State.setWrAck_wq (b : Bool) : (s.setWrAck b).wq = s.wq := rfl
@[simp] theorem State.setWrAck_wrAck (b : Bool) : (s.setWrAck b).wrAck = b := rfl
@[simp] theorem State.setWrAck_mem (b : Bool) : (s.setWrAck b).mem = s.mem := rfl
@[simp] theorem State.setWrAck_rbin (b : Bool) : (s.setWrAck b).rbin = s.rbin := rfl
@[simp] theorem State.setWrAck_rgray (b : Bool) : (s.setWrAck b).rgray = s.rgray := rfl
@[simp] theorem State.setWrAck_rq (b : Bool) : (s.setWrAck b).rq = s.rq := rfl
@[simp] theorem State.setWrAck_rdFid (b : Bool) : (s.setWrAck b).rdFid = s.rdFid := rfl
@[simp] theorem State.setWrAck_rdFpay (b : Bool) : (s.setWrAck b).rdFpay = s.rdFpay := rfl
@[simp] theorem State.setWrAck_rdValid (b : Bool) : (s.setWrAck b).rdValid = s.rdValid := rfl
@[simp] theorem State.setWrAck_draw (b : Bool) : (s.setWrAck b).draw = s.draw := rfl
@[simp] theorem State.setWrAck_observed (b : Bool) : (s.setWrAck b).observed = s.observed := rfl
@[simp] theorem State.setWrAck_epoch (b : Bool) : (s.setWrAck b).epoch = s.epoch := rfl
@[simp] theorem State.setWrAck_pending (b : Bool) : (s.setWrAck b).pending = s.pending := rfl

/-! ### State.setResult -/

@[simp] theorem State.setResult_params (f : Slot) (b : Bool) : (s.setResult f b).params = s.params := rfl
@[simp] theorem State.setResult_live (f : Slot) (b : Bool) : (s.setResult f b).live = s.live := rfl
@[simp] theorem State.setResult_wbin (f : Slot) (b : Bool) : (s.setResult f b).wbin = s.wbin := rfl
@[simp] theorem State.setResult_wgray (f : Slot) (b : Bool) : (s.setResult f b).wgray = s.wgray := rfl
@[simp] theorem State.setResult_wq (f : Slot) (b : Bool) : (s.setResult f b).wq = s.wq := rfl
@[simp] theorem State.setResult_wrAck (f : Slot) (b : Bool) : (s.setResult f b).wrAck = s.wrAck := rfl
@[simp] theorem State.setResult_mem (f : Slot) (b : Bool) : (s.setResult f b).mem = s.mem := rfl
@[simp] theorem State.setResult_rbin (f : Slot) (b : Bool) : (s.setResult f b).rbin = s.rbin := rfl
@[simp] theorem State.setResult_rgray (f : Slot) (b : Bool) : (s.setResult f b).rgray = s.rgray := rfl
@[simp] theorem State.setResult_rq (f : Slot) (b : Bool) : (s.setResult f b).rq = s.rq := rfl
@[simp] theorem State.setResult_rdFid (f : Slot) (b : Bool) : (s.setResult f b).rdFid = f.id := rfl
@[simp] theorem State.setResult_rdFpay (f : Slot) (b : Bool) : (s.setResult f b).rdFpay = f.payload := rfl
@[simp] theorem State.setResult_rdValid (f : Slot) (b : Bool) : (s.setResult f b).rdValid = b := rfl
@[simp] theorem State.setResult_draw (f : Slot) (b : Bool) : (s.setResult f b).draw = s.draw := rfl
@[simp] theorem State.setResult_observed (f : Slot) (b : Bool) : (s.setResult f b).observed = s.observed := rfl
@[simp] theorem State.setResult_epoch (f : Slot) (b : Bool) : (s.setResult f b).epoch = s.epoch := rfl
@[simp] theorem State.setResult_pending (f : Slot) (b : Bool) : (s.setResult f b).pending = s.pending := rfl

/-! ### State.setWq -/

@[simp] theorem State.setWq_params (q : List Ptr) : (s.setWq q).params = s.params := rfl
@[simp] theorem State.setWq_live (q : List Ptr) : (s.setWq q).live = s.live := rfl
@[simp] theorem State.setWq_wbin (q : List Ptr) : (s.setWq q).wbin = s.wbin := rfl
@[simp] theorem State.setWq_wgray (q : List Ptr) : (s.setWq q).wgray = s.wgray := rfl
@[simp] theorem State.setWq_wq (q : List Ptr) : (s.setWq q).wq = q := rfl
@[simp] theorem State.setWq_wrAck (q : List Ptr) : (s.setWq q).wrAck = s.wrAck := rfl
@[simp] theorem State.setWq_mem (q : List Ptr) : (s.setWq q).mem = s.mem := rfl
@[simp] theorem State.setWq_rbin (q : List Ptr) : (s.setWq q).rbin = s.rbin := rfl
@[simp] theorem State.setWq_rgray (q : List Ptr) : (s.setWq q).rgray = s.rgray := rfl
@[simp] theorem State.setWq_rq (q : List Ptr) : (s.setWq q).rq = s.rq := rfl
@[simp] theorem State.setWq_rdFid (q : List Ptr) : (s.setWq q).rdFid = s.rdFid := rfl
@[simp] theorem State.setWq_rdFpay (q : List Ptr) : (s.setWq q).rdFpay = s.rdFpay := rfl
@[simp] theorem State.setWq_rdValid (q : List Ptr) : (s.setWq q).rdValid = s.rdValid := rfl
@[simp] theorem State.setWq_draw (q : List Ptr) : (s.setWq q).draw = s.draw := rfl
@[simp] theorem State.setWq_observed (q : List Ptr) : (s.setWq q).observed = s.observed := rfl
@[simp] theorem State.setWq_epoch (q : List Ptr) : (s.setWq q).epoch = s.epoch := rfl
@[simp] theorem State.setWq_pending (q : List Ptr) : (s.setWq q).pending = s.pending := rfl

/-! ### State.setRq -/

@[simp] theorem State.setRq_params (q : List Ptr) : (s.setRq q).params = s.params := rfl
@[simp] theorem State.setRq_live (q : List Ptr) : (s.setRq q).live = s.live := rfl
@[simp] theorem State.setRq_wbin (q : List Ptr) : (s.setRq q).wbin = s.wbin := rfl
@[simp] theorem State.setRq_wgray (q : List Ptr) : (s.setRq q).wgray = s.wgray := rfl
@[simp] theorem State.setRq_wq (q : List Ptr) : (s.setRq q).wq = s.wq := rfl
@[simp] theorem State.setRq_wrAck (q : List Ptr) : (s.setRq q).wrAck = s.wrAck := rfl
@[simp] theorem State.setRq_mem (q : List Ptr) : (s.setRq q).mem = s.mem := rfl
@[simp] theorem State.setRq_rbin (q : List Ptr) : (s.setRq q).rbin = s.rbin := rfl
@[simp] theorem State.setRq_rgray (q : List Ptr) : (s.setRq q).rgray = s.rgray := rfl
@[simp] theorem State.setRq_rq (q : List Ptr) : (s.setRq q).rq = q := rfl
@[simp] theorem State.setRq_rdFid (q : List Ptr) : (s.setRq q).rdFid = s.rdFid := rfl
@[simp] theorem State.setRq_rdFpay (q : List Ptr) : (s.setRq q).rdFpay = s.rdFpay := rfl
@[simp] theorem State.setRq_rdValid (q : List Ptr) : (s.setRq q).rdValid = s.rdValid := rfl
@[simp] theorem State.setRq_draw (q : List Ptr) : (s.setRq q).draw = s.draw := rfl
@[simp] theorem State.setRq_observed (q : List Ptr) : (s.setRq q).observed = s.observed := rfl
@[simp] theorem State.setRq_epoch (q : List Ptr) : (s.setRq q).epoch = s.epoch := rfl
@[simp] theorem State.setRq_pending (q : List Ptr) : (s.setRq q).pending = s.pending := rfl

/-! ### State.setObserved -/

@[simp] theorem State.setObserved_params (o : Observation) : (s.setObserved o).params = s.params := rfl
@[simp] theorem State.setObserved_live (o : Observation) : (s.setObserved o).live = s.live := rfl
@[simp] theorem State.setObserved_wbin (o : Observation) : (s.setObserved o).wbin = s.wbin := rfl
@[simp] theorem State.setObserved_wgray (o : Observation) : (s.setObserved o).wgray = s.wgray := rfl
@[simp] theorem State.setObserved_wq (o : Observation) : (s.setObserved o).wq = s.wq := rfl
@[simp] theorem State.setObserved_wrAck (o : Observation) : (s.setObserved o).wrAck = s.wrAck := rfl
@[simp] theorem State.setObserved_mem (o : Observation) : (s.setObserved o).mem = s.mem := rfl
@[simp] theorem State.setObserved_rbin (o : Observation) : (s.setObserved o).rbin = s.rbin := rfl
@[simp] theorem State.setObserved_rgray (o : Observation) : (s.setObserved o).rgray = s.rgray := rfl
@[simp] theorem State.setObserved_rq (o : Observation) : (s.setObserved o).rq = s.rq := rfl
@[simp] theorem State.setObserved_rdFid (o : Observation) : (s.setObserved o).rdFid = s.rdFid := rfl
@[simp] theorem State.setObserved_rdFpay (o : Observation) : (s.setObserved o).rdFpay = s.rdFpay := rfl
@[simp] theorem State.setObserved_rdValid (o : Observation) : (s.setObserved o).rdValid = s.rdValid := rfl
@[simp] theorem State.setObserved_draw (o : Observation) : (s.setObserved o).draw = s.draw := rfl
@[simp] theorem State.setObserved_observed (o : Observation) : (s.setObserved o).observed = some o := rfl
@[simp] theorem State.setObserved_epoch (o : Observation) : (s.setObserved o).epoch = s.epoch := rfl
@[simp] theorem State.setObserved_pending (o : Observation) : (s.setObserved o).pending = s.pending := rfl

/-! ### State.resetBlock -/

@[simp] theorem State.resetBlock_params : (s.resetBlock).params = s.params := rfl
@[simp] theorem State.resetBlock_live : (s.resetBlock).live = true := rfl
@[simp] theorem State.resetBlock_wbin : (s.resetBlock).wbin = 0 := rfl
@[simp] theorem State.resetBlock_wgray : (s.resetBlock).wgray = 0 := rfl
@[simp] theorem State.resetBlock_wq : (s.resetBlock).wq = List.replicate s.params.syncStages 0 := rfl
@[simp] theorem State.resetBlock_wrAck : (s.resetBlock).wrAck = false := rfl
@[simp] theorem State.resetBlock_mem : (s.resetBlock).mem = [] := rfl
@[simp] theorem State.resetBlock_rbin : (s.resetBlock).rbin = 0 := rfl
@[simp] theorem State.resetBlock_rgray : (s.resetBlock).rgray = 0 := rfl
@[simp] theorem State.resetBlock_rq : (s.resetBlock).rq = List.replicate s.params.syncStages 0 := rfl
@[simp] theorem State.resetBlock_rdFid : (s.resetBlock).rdFid = 0 := rfl
@[simp] theorem State.resetBlock_rdFpay : (s.resetBlock).rdFpay = 0 := rfl
@[simp] theorem State.resetBlock_rdValid : (s.resetBlock).rdValid = false := rfl
@[simp] theorem State.resetBlock_draw : (s.resetBlock).draw = s.draw := rfl
@[simp] theorem State.resetBlock_observed : (s.resetBlock).observed = s.observed := rfl
@[simp] theorem State.resetBlock_epoch : (s.resetBlock).epoch = s.epoch + 1 := rfl
@[simp] theorem State.resetBlock_pending : (s.resetBlock).pending = s.pending := rfl

/-! ### State.powerCycle -/

@[simp] theorem State.powerCycle_params : (s.powerCycle).params = s.params := rfl
@[simp] theorem State.powerCycle_live : (s.powerCycle).live = false := rfl
@[simp] theorem State.powerCycle_wbin : (s.powerCycle).wbin = 0 := rfl
@[simp] theorem State.powerCycle_wgray : (s.powerCycle).wgray = 0 := rfl
@[simp] theorem State.powerCycle_wq : (s.powerCycle).wq = List.replicate s.params.syncStages 0 := rfl
@[simp] theorem State.powerCycle_wrAck : (s.powerCycle).wrAck = false := rfl
@[simp] theorem State.powerCycle_mem : (s.powerCycle).mem = [] := rfl
@[simp] theorem State.powerCycle_rbin : (s.powerCycle).rbin = 0 := rfl
@[simp] theorem State.powerCycle_rgray : (s.powerCycle).rgray = 0 := rfl
@[simp] theorem State.powerCycle_rq : (s.powerCycle).rq = List.replicate s.params.syncStages 0 := rfl
@[simp] theorem State.powerCycle_rdFid : (s.powerCycle).rdFid = 0 := rfl
@[simp] theorem State.powerCycle_rdFpay : (s.powerCycle).rdFpay = 0 := rfl
@[simp] theorem State.powerCycle_rdValid : (s.powerCycle).rdValid = false := rfl
@[simp] theorem State.powerCycle_draw : (s.powerCycle).draw = s.draw := rfl
@[simp] theorem State.powerCycle_observed : (s.powerCycle).observed = s.observed := rfl
@[simp] theorem State.powerCycle_epoch : (s.powerCycle).epoch = s.epoch := rfl
@[simp] theorem State.powerCycle_pending : (s.powerCycle).pending = s.pending := rfl

/-! ### State.taken -/

@[simp] theorem State.taken_params (es : List HostEvent) (d : Draw) : (s.taken es d).params = s.params := rfl
@[simp] theorem State.taken_live (es : List HostEvent) (d : Draw) : (s.taken es d).live = s.live := rfl
@[simp] theorem State.taken_wbin (es : List HostEvent) (d : Draw) : (s.taken es d).wbin = s.wbin := rfl
@[simp] theorem State.taken_wgray (es : List HostEvent) (d : Draw) : (s.taken es d).wgray = s.wgray := rfl
@[simp] theorem State.taken_wq (es : List HostEvent) (d : Draw) : (s.taken es d).wq = s.wq := rfl
@[simp] theorem State.taken_wrAck (es : List HostEvent) (d : Draw) : (s.taken es d).wrAck = s.wrAck := rfl
@[simp] theorem State.taken_mem (es : List HostEvent) (d : Draw) : (s.taken es d).mem = s.mem := rfl
@[simp] theorem State.taken_rbin (es : List HostEvent) (d : Draw) : (s.taken es d).rbin = s.rbin := rfl
@[simp] theorem State.taken_rgray (es : List HostEvent) (d : Draw) : (s.taken es d).rgray = s.rgray := rfl
@[simp] theorem State.taken_rq (es : List HostEvent) (d : Draw) : (s.taken es d).rq = s.rq := rfl
@[simp] theorem State.taken_rdFid (es : List HostEvent) (d : Draw) : (s.taken es d).rdFid = s.rdFid := rfl
@[simp] theorem State.taken_rdFpay (es : List HostEvent) (d : Draw) : (s.taken es d).rdFpay = s.rdFpay := rfl
@[simp] theorem State.taken_rdValid (es : List HostEvent) (d : Draw) : (s.taken es d).rdValid = s.rdValid := rfl
@[simp] theorem State.taken_draw (es : List HostEvent) (d : Draw) : (s.taken es d).draw = d := rfl
@[simp] theorem State.taken_observed (es : List HostEvent) (d : Draw) : (s.taken es d).observed = s.observed := rfl
@[simp] theorem State.taken_epoch (es : List HostEvent) (d : Draw) : (s.taken es d).epoch = s.epoch := rfl
@[simp] theorem State.taken_pending (es : List HostEvent) (d : Draw) : (s.taken es d).pending = es := rfl

/-! ### State.dropEvent -/

@[simp] theorem State.dropEvent_params (es : List HostEvent) : (s.dropEvent es).params = s.params := rfl
@[simp] theorem State.dropEvent_live (es : List HostEvent) : (s.dropEvent es).live = s.live := rfl
@[simp] theorem State.dropEvent_wbin (es : List HostEvent) : (s.dropEvent es).wbin = s.wbin := rfl
@[simp] theorem State.dropEvent_wgray (es : List HostEvent) : (s.dropEvent es).wgray = s.wgray := rfl
@[simp] theorem State.dropEvent_wq (es : List HostEvent) : (s.dropEvent es).wq = s.wq := rfl
@[simp] theorem State.dropEvent_wrAck (es : List HostEvent) : (s.dropEvent es).wrAck = s.wrAck := rfl
@[simp] theorem State.dropEvent_mem (es : List HostEvent) : (s.dropEvent es).mem = s.mem := rfl
@[simp] theorem State.dropEvent_rbin (es : List HostEvent) : (s.dropEvent es).rbin = s.rbin := rfl
@[simp] theorem State.dropEvent_rgray (es : List HostEvent) : (s.dropEvent es).rgray = s.rgray := rfl
@[simp] theorem State.dropEvent_rq (es : List HostEvent) : (s.dropEvent es).rq = s.rq := rfl
@[simp] theorem State.dropEvent_rdFid (es : List HostEvent) : (s.dropEvent es).rdFid = s.rdFid := rfl
@[simp] theorem State.dropEvent_rdFpay (es : List HostEvent) : (s.dropEvent es).rdFpay = s.rdFpay := rfl
@[simp] theorem State.dropEvent_rdValid (es : List HostEvent) : (s.dropEvent es).rdValid = s.rdValid := rfl
@[simp] theorem State.dropEvent_draw (es : List HostEvent) : (s.dropEvent es).draw = s.draw := rfl
@[simp] theorem State.dropEvent_observed (es : List HostEvent) : (s.dropEvent es).observed = s.observed := rfl
@[simp] theorem State.dropEvent_epoch (es : List HostEvent) : (s.dropEvent es).epoch = s.epoch := rfl
@[simp] theorem State.dropEvent_pending (es : List HostEvent) : (s.dropEvent es).pending = es := rfl

/-! ### State.present -/

@[simp] theorem State.present_params (e : HostEvent) : (s.present e).params = s.params := rfl
@[simp] theorem State.present_live (e : HostEvent) : (s.present e).live = s.live := rfl
@[simp] theorem State.present_wbin (e : HostEvent) : (s.present e).wbin = s.wbin := rfl
@[simp] theorem State.present_wgray (e : HostEvent) : (s.present e).wgray = s.wgray := rfl
@[simp] theorem State.present_wq (e : HostEvent) : (s.present e).wq = s.wq := rfl
@[simp] theorem State.present_wrAck (e : HostEvent) : (s.present e).wrAck = s.wrAck := rfl
@[simp] theorem State.present_mem (e : HostEvent) : (s.present e).mem = s.mem := rfl
@[simp] theorem State.present_rbin (e : HostEvent) : (s.present e).rbin = s.rbin := rfl
@[simp] theorem State.present_rgray (e : HostEvent) : (s.present e).rgray = s.rgray := rfl
@[simp] theorem State.present_rq (e : HostEvent) : (s.present e).rq = s.rq := rfl
@[simp] theorem State.present_rdFid (e : HostEvent) : (s.present e).rdFid = s.rdFid := rfl
@[simp] theorem State.present_rdFpay (e : HostEvent) : (s.present e).rdFpay = s.rdFpay := rfl
@[simp] theorem State.present_rdValid (e : HostEvent) : (s.present e).rdValid = s.rdValid := rfl
@[simp] theorem State.present_draw (e : HostEvent) : (s.present e).draw = s.draw := rfl
@[simp] theorem State.present_observed (e : HostEvent) : (s.present e).observed = s.observed := rfl
@[simp] theorem State.present_epoch (e : HostEvent) : (s.present e).epoch = s.epoch := rfl
@[simp] theorem State.present_pending (e : HostEvent) : (s.present e).pending = e :: s.pending := rfl

/-! ### State.withPending -/

@[simp] theorem State.withPending_params (es : List HostEvent) : (s.withPending es).params = s.params := rfl
@[simp] theorem State.withPending_live (es : List HostEvent) : (s.withPending es).live = s.live := rfl
@[simp] theorem State.withPending_wbin (es : List HostEvent) : (s.withPending es).wbin = s.wbin := rfl
@[simp] theorem State.withPending_wgray (es : List HostEvent) : (s.withPending es).wgray = s.wgray := rfl
@[simp] theorem State.withPending_wq (es : List HostEvent) : (s.withPending es).wq = s.wq := rfl
@[simp] theorem State.withPending_wrAck (es : List HostEvent) : (s.withPending es).wrAck = s.wrAck := rfl
@[simp] theorem State.withPending_mem (es : List HostEvent) : (s.withPending es).mem = s.mem := rfl
@[simp] theorem State.withPending_rbin (es : List HostEvent) : (s.withPending es).rbin = s.rbin := rfl
@[simp] theorem State.withPending_rgray (es : List HostEvent) : (s.withPending es).rgray = s.rgray := rfl
@[simp] theorem State.withPending_rq (es : List HostEvent) : (s.withPending es).rq = s.rq := rfl
@[simp] theorem State.withPending_rdFid (es : List HostEvent) : (s.withPending es).rdFid = s.rdFid := rfl
@[simp] theorem State.withPending_rdFpay (es : List HostEvent) : (s.withPending es).rdFpay = s.rdFpay := rfl
@[simp] theorem State.withPending_rdValid (es : List HostEvent) : (s.withPending es).rdValid = s.rdValid := rfl
@[simp] theorem State.withPending_draw (es : List HostEvent) : (s.withPending es).draw = s.draw := rfl
@[simp] theorem State.withPending_observed (es : List HostEvent) : (s.withPending es).observed = s.observed := rfl
@[simp] theorem State.withPending_epoch (es : List HostEvent) : (s.withPending es).epoch = s.epoch := rfl
@[simp] theorem State.withPending_pending (es : List HostEvent) : (s.withPending es).pending = es := rfl

/-! ### State.withDraw -/

@[simp] theorem State.withDraw_params (d : Draw) : (s.withDraw d).params = s.params := rfl
@[simp] theorem State.withDraw_live (d : Draw) : (s.withDraw d).live = s.live := rfl
@[simp] theorem State.withDraw_wbin (d : Draw) : (s.withDraw d).wbin = s.wbin := rfl
@[simp] theorem State.withDraw_wgray (d : Draw) : (s.withDraw d).wgray = s.wgray := rfl
@[simp] theorem State.withDraw_wq (d : Draw) : (s.withDraw d).wq = s.wq := rfl
@[simp] theorem State.withDraw_wrAck (d : Draw) : (s.withDraw d).wrAck = s.wrAck := rfl
@[simp] theorem State.withDraw_mem (d : Draw) : (s.withDraw d).mem = s.mem := rfl
@[simp] theorem State.withDraw_rbin (d : Draw) : (s.withDraw d).rbin = s.rbin := rfl
@[simp] theorem State.withDraw_rgray (d : Draw) : (s.withDraw d).rgray = s.rgray := rfl
@[simp] theorem State.withDraw_rq (d : Draw) : (s.withDraw d).rq = s.rq := rfl
@[simp] theorem State.withDraw_rdFid (d : Draw) : (s.withDraw d).rdFid = s.rdFid := rfl
@[simp] theorem State.withDraw_rdFpay (d : Draw) : (s.withDraw d).rdFpay = s.rdFpay := rfl
@[simp] theorem State.withDraw_rdValid (d : Draw) : (s.withDraw d).rdValid = s.rdValid := rfl
@[simp] theorem State.withDraw_draw (d : Draw) : (s.withDraw d).draw = d := rfl
@[simp] theorem State.withDraw_observed (d : Draw) : (s.withDraw d).observed = s.observed := rfl
@[simp] theorem State.withDraw_epoch (d : Draw) : (s.withDraw d).epoch = s.epoch := rfl
@[simp] theorem State.withDraw_pending (d : Draw) : (s.withDraw d).pending = s.pending := rfl

end Sys2Proof.Machine
end

