-- ==== Sys2Proof/Laws/Ops.lean ====
section
/-!
SUPPORT. What each shared operation can do, said once: the pointer and Gray functions, the synchronizer's sample, the slot
storage, and the conditions under which a command answers a next state.
-/

namespace Sys2Proof.Machine

/-! ### Pointers and Gray code -/

theorem nextPtr_eq_add_one : ∀ p : Ptr, nextPtr p = p + 1 := by decide

theorem gray2bin_bin2gray : ∀ p : Ptr, gray2bin (bin2gray p) = p := by decide

theorem bin2gray_gray2bin : ∀ g : Ptr, bin2gray (gray2bin g) = g := by decide

theorem ptrIdx_toNat (p : Ptr) : (ptrIdx p).toNat = p.toNat % 8 := by
  simp [ptrIdx, BitVec.extractLsb'_toNat]

theorem ptrDist_self (p : Ptr) : ptrDist p p = 0 := by simp [ptrDist]

theorem ptrDist_toNat (a b : Ptr) : (ptrDist a b).toNat = (16 - a.toNat + b.toNat) % 16 := by
  simp [ptrDist, BitVec.toNat_sub]

/-! ### The synchronizer's sample -/

theorem inWindow_source (f src : Ptr) : inWindow f src src = true := by simp [inWindow]

theorem inWindow_first (f src : Ptr) : inWindow f src f = true := by
  simp [inWindow, ptrDist, BitVec.le_def]

@[simp] theorem sampled_now (f src : Ptr) : sampled .now f src = some src := by
  simp [sampled, inWindow_source]

@[simp] theorem sampled_old (f src : Ptr) : sampled .old f src = some f := by
  simp [sampled, inWindow_first]

/-- A sample that is taken lies in the window (41_gray_counter_cdc.md R123). -/
theorem sampled_inWindow {d : Draw} {f src g : Ptr} (h : sampled d f src = some g) : inWindow f src g = true := by
  cases d with
  | now => simp only [sampled_now, Option.some.injEq] at h; exact h ▸ inWindow_source f src
  | old => simp only [sampled_old, Option.some.injEq] at h; exact h ▸ inWindow_first f src
  | plus k =>
    simp only [sampled] at h
    split at h
    · rename_i hk
      simp only [Option.some.injEq] at h
      exact h ▸ hk.2
    · cases h

theorem shiftIn_length {n : Nat} (g : Ptr) {q : List Ptr} (hn : 1 ≤ n) (hq : q.length = n) :
    (shiftIn n g q).length = n := by
  simp [shiftIn, hq]; omega

/-! ### Slot storage -/

theorem Memory.lookup_store_same (m : Memory) (i : Nat) (v : Slot) :
    Memory.lookup (Memory.store m i v) i = some v := by
  induction m with
  | nil => simp [Memory.store, Memory.lookup]
  | cons c m ih =>
    obtain ⟨a, w⟩ := c
    simp only [Memory.store]
    split
    · simp [Memory.lookup]
    · split
      · simp [Memory.lookup]
      · rename_i h
        simp only [Memory.lookup, ih]
        rw [if_neg fun e => h e.symm]

theorem Memory.lookup_store_ne (m : Memory) {i j : Nat} (v : Slot) (h : j ≠ i) :
    Memory.lookup (Memory.store m i v) j = Memory.lookup m j := by
  induction m with
  | nil => simp [Memory.store, Memory.lookup, h.symm]
  | cons c m ih =>
    obtain ⟨a, w⟩ := c
    simp only [Memory.store]
    split
    · simp [Memory.lookup, h.symm]
    · split
      · rename_i e
        subst e
        simp [Memory.lookup, h.symm]
      · simp only [Memory.lookup, ih]

theorem Memory.mem_store {m : Memory} {i : Nat} {v : Slot} {c : Nat × Slot}
    (h : c ∈ Memory.store m i v) : c = (i, v) ∨ c ∈ m := by
  induction m with
  | nil => simpa [Memory.store] using h
  | cons d m ih =>
    obtain ⟨a, w⟩ := d
    simp only [Memory.store] at h
    split at h
    · simpa using h
    · split at h
      · simp only [List.mem_cons] at h ⊢
        tauto
      · simp only [List.mem_cons] at h ⊢
        rcases h with h | h
        · exact .inr (.inl h)
        · exact (ih h).imp id .inr

theorem Memory.wf_iff (m : Memory) :
    m.wf = true ↔ m.Pairwise (fun x y => x.1 < y.1) ∧ ∀ c ∈ m, c.1 < 8 := by
  simp only [Memory.wf, Bool.and_eq_true, decide_eq_true_eq, List.all_eq_true]

/-- A write into a live slot keeps the canonical form. -/
theorem Memory.store_wf {m : Memory} (hm : m.wf = true) (i : Index) (v : Slot) :
    (Memory.store m i.toNat v).wf = true := by
  rw [Memory.wf_iff] at hm ⊢
  refine ⟨?_, fun c hc => ?_⟩
  · obtain ⟨hp, -⟩ := hm
    induction m with
    | nil => simp [Memory.store]
    | cons d m ih =>
      obtain ⟨a, w⟩ := d
      rw [List.pairwise_cons] at hp
      simp only [Memory.store]
      split
      · rename_i hlt
        refine List.pairwise_cons.2 ⟨fun c hc => ?_, List.pairwise_cons.2 hp⟩
        rcases List.mem_cons.1 hc with rfl | hc
        · exact hlt
        · exact Nat.lt_trans hlt (hp.1 c hc)
      · split
        · rename_i he
          subst he
          exact List.pairwise_cons.2 hp
        · rename_i hge hne
          refine List.pairwise_cons.2 ⟨fun c hc => ?_, ih hp.2⟩
          rcases Memory.mem_store hc with rfl | hc
          · show a < i.toNat
            omega
          · exact hp.1 c hc
  · rcases Memory.mem_store hc with rfl | hc
    · exact i.isLt
    · exact hm.2 c hc

/-! ### Reading a slot -/

@[simp] theorem memRead_sentinelSlot (s : State) : memRead s sentinelSlot = sentinel := by simp [memRead]

/-- A slot's reading depends on the storage, the parameters and the epoch alone. -/
theorem memRead_congr {s t : State} (hm : t.mem = s.mem) (hp : t.params = s.params) (he : t.epoch = s.epoch)
    (i : Fin Config.slots) : memRead t i = memRead s i := by
  simp only [memRead, hm, hp, he]

@[simp] theorem memRead_setWptr (s : State) (p i) : memRead (s.setWptr p) i = memRead s i := rfl
@[simp] theorem memRead_setRptr (s : State) (p i) : memRead (s.setRptr p) i = memRead s i := rfl
@[simp] theorem memRead_setWrAck (s : State) (b i) : memRead (s.setWrAck b) i = memRead s i := rfl
@[simp] theorem memRead_setResult (s : State) (f b i) : memRead (s.setResult f b) i = memRead s i := rfl
@[simp] theorem memRead_setWq (s : State) (q i) : memRead (s.setWq q) i = memRead s i := rfl
@[simp] theorem memRead_setRq (s : State) (q i) : memRead (s.setRq q) i = memRead s i := rfl
@[simp] theorem memRead_setObserved (s : State) (o i) : memRead (s.setObserved o) i = memRead s i := rfl
@[simp] theorem memRead_taken (s : State) (es d i) : memRead (s.taken es d) i = memRead s i := rfl
@[simp] theorem memRead_withDraw (s : State) (d i) : memRead (s.withDraw d) i = memRead s i := rfl
@[simp] theorem memRead_withPending (s : State) (es i) : memRead (s.withPending es) i = memRead s i := rfl

theorem liveSlot_ne_sentinelSlot (i : Index) : liveSlot i ≠ sentinelSlot := by
  intro h
  have := congrArg Fin.val h
  simp only [liveSlot, sentinelSlot] at this
  have := i.isLt
  omega

theorem liveSlot_injective {i j : Index} (h : liveSlot i = liveSlot j) : i = j := by
  have := congrArg Fin.val h
  exact BitVec.eq_of_toNat_eq this

theorem memRead_liveSlot (s : State) (i : Index) :
    memRead s (liveSlot i) = (Memory.lookup s.mem i.toNat).getD (unwritten s.params s.epoch i.toNat) := by
  simp only [memRead, if_neg (liveSlot_ne_sentinelSlot i)]
  rfl

/-- A read after a write to the same slot gives the value written. -/
theorem memRead_storeSlot_same (s : State) (i : Index) (v : Slot) :
    memRead (s.storeSlot i v) (liveSlot i) = v := by
  simp [memRead_liveSlot, Memory.lookup_store_same]

/-- A write leaves every other slot alone. -/
theorem memRead_storeSlot_ne (s : State) {i : Index} (v : Slot) {j : Fin Config.slots} (h : j ≠ liveSlot i) :
    memRead (s.storeSlot i v) j = memRead s j := by
  have hv : j.val ≠ i.toNat := fun e => h (Fin.ext e)
  simp [memRead, Memory.lookup_store_ne _ _ hv]

/-! ### When a command answers a next state -/

theorem whenValid_next {s t : State} {r : Result} :
    whenValid s r = .next t ↔ s.validParams = true ∧ r = .next t := by
  unfold whenValid State.validParams
  by_cases h : s.params.cap = Config.cap
  · cases hr : s.params.inRange <;> simp [h]
  · simp [h]

theorem whenLive_next {s t : State} {r : Result} :
    whenLive s r = .next t ↔ s.ready = true ∧ r = .next t := by
  unfold whenLive State.ready
  rw [whenValid_next]
  cases hl : s.live <;> simp

theorem whenLive_of_ready {s : State} (h : s.ready = true) (r : Result) : whenLive s r = r := by
  simp only [State.ready, State.validParams, Bool.and_eq_true, decide_eq_true_eq] at h
  simp [whenLive, whenValid, h]

/-- A write-agent step answers a next state exactly when the block is ready and the draw is in the window; then the
synchronizer has advanced beside the effect `k`. -/
theorem writeStep_next {s k t : State} :
    writeStep s k = .next t ↔ s.ready = true ∧ ∃ g, sampled s.draw (firstStage s.wq) s.rgray = some g ∧
      t = k.setWq (shiftIn s.params.syncStages g s.wq) := by
  unfold writeStep
  rw [whenLive_next]
  cases sampled s.draw (firstStage s.wq) s.rgray <;>
    simp only [reduceCtorEq, Host.Outcome.next.injEq, Option.some.injEq, false_and, exists_false, and_false,
      exists_eq_left', eq_comm (a := t)]

/-- A read-agent step answers a next state exactly when the block is ready and the draw is in the window; then the
synchronizer has advanced beside the effect `k`. -/
theorem readStep_next {s k t : State} :
    readStep s k = .next t ↔ s.ready = true ∧ ∃ g, sampled s.draw (firstStage s.rq) s.wgray = some g ∧
      t = k.setRq (shiftIn s.params.syncStages g s.rq) := by
  unfold readStep
  rw [whenLive_next]
  cases sampled s.draw (firstStage s.rq) s.wgray <;>
    simp only [reduceCtorEq, Host.Outcome.next.injEq, Option.some.injEq, false_and, exists_false, and_false,
      exists_eq_left', eq_comm (a := t)]

/-- An observation answers a next state exactly when the block is ready and the observer is in the output's domain. -/
theorem observe_next {s t : State} {o : Output} {d : Domain} :
    observe o d s = .next t ↔ s.ready = true ∧ outputDomain o = d ∧ t = s.setObserved (outputValue s o) := by
  unfold observe
  rw [whenLive_next]
  by_cases h : outputDomain o = d <;>
    simp only [h, if_true, if_false, reduceCtorEq, Host.Outcome.next.injEq, true_and, false_and, and_false,
      eq_comm (a := t)]

/-- What `step` can do: run the decoded command, take an event that runs none, or stop. -/
theorem step_next {s t : State} :
    step s = .next t ↔ (∃ i u, fetch s = .run i u ∧ exec i u = .next t) ∨ fetch s = .done t := by
  unfold step
  cases fetch s <;> simp

end Sys2Proof.Machine
end

