-- ==== Sys2Proof/Laws/Exec.lean ====
section
/-!
SUPPORT. What each command can answer: every observation is `observe` of the output it names, and one inversion lemma for
each command that changes the block.
-/

namespace Sys2Proof.Machine

/-- A status observation is `observe` of its output (44_status.md). -/
theorem exec_observation {i : Instr} {o : Output} {d : Domain} (h : observation i = some (o, d)) (s : State) :
    exec i s = observe o d s := by
  cases i <;> simp only [observation, reduceCtorEq, Option.some.injEq, Prod.mk.injEq] at h <;>
    obtain ⟨rfl, rfl⟩ := h <;> rfl

/-- Every command is RESET, a write command, a read command or an observation (30_encoding.md R85). -/
theorem command_cases (i : Instr) :
    i = .reset ∨ isWriteCommand i = true ∨ isReadCommand i = true ∨ ∃ o d, observation i = some (o, d) := by
  cases i <;> simp [isWriteCommand, isReadCommand, observation]

theorem exec_reset_next {s t : State} :
    exec .reset s = .next t ↔ s.validParams = true ∧ t = s.resetBlock := by
  rw [show exec .reset s = whenValid s (.next s.resetBlock) from rfl, whenValid_next, Host.Outcome.next.injEq,
    eq_comm (a := t)]

theorem exec_push_next {s t : State} {id : Nat} {v : Payload} {len : Len} :
    exec (.push id v len) s = .next t ↔ s.ready = true ∧ ∃ g, sampled s.draw (firstStage s.wq) s.rgray = some g ∧
      t = (if wrFull s then s.setWrAck false
        else ((s.storeSlot (ptrIdx s.wbin) (Slot.mk id v)).setWptr (nextPtr s.wbin)).setWrAck true).setWq
          (shiftIn s.params.syncStages g s.wq) :=
  writeStep_next

theorem exec_wrNop_next {s t : State} :
    exec .wrNop s = .next t ↔ s.ready = true ∧ ∃ g, sampled s.draw (firstStage s.wq) s.rgray = some g ∧
      t = (s.setWrAck false).setWq (shiftIn s.params.syncStages g s.wq) :=
  writeStep_next

theorem exec_pop_next {s t : State} :
    exec .pop s = .next t ↔ s.ready = true ∧ ∃ g, sampled s.draw (firstStage s.rq) s.wgray = some g ∧
      t = (if rdEmpty s then s.setResult (memRead s sentinelSlot) false
        else (s.setResult (memRead s (liveSlot (ptrIdx s.rbin))) true).setRptr (nextPtr s.rbin)).setRq
          (shiftIn s.params.syncStages g s.rq) :=
  readStep_next

theorem exec_rdNop_next {s t : State} :
    exec .rdNop s = .next t ↔ s.ready = true ∧ ∃ g, sampled s.draw (firstStage s.rq) s.wgray = some g ∧
      t = s.setRq (shiftIn s.params.syncStages g s.rq) :=
  readStep_next

/-- A step on an idle edge of the write clock. -/
theorem step_idle_write {s t : State} {d : Draw} {es : List HostEvent} :
    step (s.withPending ((IdleEdge.write d).event s.params :: es)) = .next t ↔
      s.ready = true ∧ ∃ g, sampled d (firstStage s.wq) s.rgray = some g ∧
        t = (((s.withPending es).withDraw d).setWrAck false).setWq (shiftIn s.params.syncStages g s.wq) :=
  exec_wrNop_next (s := (s.withPending es).withDraw d)

/-- A step on an idle edge of the read clock. -/
theorem step_idle_read {s t : State} {d : Draw} {es : List HostEvent} :
    step (s.withPending ((IdleEdge.read d).event s.params :: es)) = .next t ↔
      s.ready = true ∧ ∃ g, sampled d (firstStage s.rq) s.wgray = some g ∧
        t = ((s.withPending es).withDraw d).setRq (shiftIn s.params.syncStages g s.rq) :=
  exec_rdNop_next (s := (s.withPending es).withDraw d)

/-- A run goes on from where its first step leads. -/
theorem runSteps_succ {n : Nat} {s t : State} (h : step s = .next t) : runSteps (n + 1) s = runSteps n t := by
  simp only [runSteps, h]

/-- The events of a sequence of idle edges, its first edge apart. -/
theorem idleEvents_succ (p : Params) (f : Nat → IdleEdge) (n : Nat) :
    idleEvents p f (n + 1) = (f 0).event p :: idleEvents p (fun k => f (k + 1)) n := by
  simp [idleEvents, List.range_succ_eq_map, List.map_map, Function.comp_def]

end Sys2Proof.Machine
end

