-- ==== Sys2Proof/Laws/Flags.lean ====
section
/-!
SUPPORT. What the views depend on, and their flags as propositions.
-/

namespace Sys2Proof.Machine

theorem wrFull_iff (s : State) : wrFull s = true ↔ wrCount s = 8 := by simp [wrFull]

theorem rdFull_iff (s : State) : rdFull s = true ↔ rdCount s = 8 := by simp [rdFull]

theorem wrEmpty_iff (s : State) : wrEmpty s = true ↔ wrCount s = 0 := by simp [wrEmpty]

theorem rdEmpty_iff (s : State) : rdEmpty s = true ↔ rdCount s = 0 := by simp [rdEmpty]

theorem wrFull_false_iff (s : State) : wrFull s = false ↔ wrCount s ≠ 8 := by simp [wrFull]

theorem rdEmpty_false_iff (s : State) : rdEmpty s = false ↔ rdCount s ≠ 0 := by simp [rdEmpty]

/-- The write view is a function of the write domain's registers alone (10_state.md R40). -/
theorem wrCount_congr {s t : State} (hp : t.params = s.params) (hq : t.wq = s.wq) (hb : t.wbin = s.wbin) :
    wrCount t = wrCount s := by
  simp only [wrCount, hp, hq, hb]

/-- The read view is a function of the read domain's registers alone (10_state.md R40). -/
theorem rdCount_congr {s t : State} (hp : t.params = s.params) (hq : t.rq = s.rq) (hb : t.rbin = s.rbin) :
    rdCount t = rdCount s := by
  simp only [rdCount, hp, hq, hb]

end Sys2Proof.Machine
end

