-- ==== Sys2Proof/Laws/PerInstr.lean ====
section
/-!
SUPPORT. The per-instruction family EncodeFits: the words of a well-formed command fit their port and hold no unknown pin
(30_encoding.md R81 to R84).
-/

namespace Sys2Proof.Laws.EncodeFits

open Sys2Proof

/-- A word of `n` pins, every one 0 or 1. -/
def Fits (n : Nat) (w : PinWord) : Prop := w.unknown = 0 ∧ w.bits < 2 ^ n

/-- A sample each of whose words has its format's width: X and R one bit, W `ID_W + 69` bits, S none. -/
def SampleFits (p : Params) : Sample → Prop
  | .reset x => Fits 1 x
  | .write x w => Fits 1 x ∧ Fits (p.idW + 69) w
  | .read x r => Fits 1 x ∧ Fits 1 r
  | .observe _ _ => True

def Statement (i : Instr) : Prop := ∀ p : Params, i.wellFormed p = true → SampleFits p (encode p i)

theorem reset : Statement .reset := fun _ _ => ⟨rfl, by decide⟩

theorem push (id : Nat) (payload : Payload) (len : Len) : Statement (.push id payload len) := by
  intro p h
  refine ⟨⟨rfl, by decide⟩, rfl, ?_⟩
  simp only [Instr.wellFormed, decide_eq_true_eq] at h
  have hp : payload.toNat < 2 ^ 64 := payload.isLt
  have hl : len.toNat < 2 ^ 4 := len.isLt
  simp only [PinWord.known, pushWord]
  have e1 : 2 ^ (p.idW + 1) = 2 * 2 ^ p.idW := by ring
  have e2 : 2 ^ (p.idW + 65) = 2 * 2 ^ 64 * 2 ^ p.idW := by ring
  have e3 : 2 ^ (p.idW + 69) = 2 * 2 ^ 64 * 2 ^ 4 * 2 ^ p.idW := by ring
  rw [e1, e2, e3]
  generalize 2 ^ p.idW = m at h ⊢
  have h1 : payload.toNat * (2 * m) ≤ (2 ^ 64 - 1) * (2 * m) := Nat.mul_le_mul_right _ (by omega)
  have h2 : len.toNat * (2 * 2 ^ 64 * m) ≤ (2 ^ 4 - 1) * (2 * 2 ^ 64 * m) := Nat.mul_le_mul_right _ (by omega)
  omega

theorem wrNop : Statement .wrNop := fun _ _ => ⟨⟨rfl, by decide⟩, rfl, Nat.two_pow_pos _⟩

theorem pop : Statement .pop := fun _ _ => ⟨⟨rfl, by decide⟩, rfl, by decide⟩

theorem rdNop : Statement .rdNop := fun _ _ => ⟨⟨rfl, by decide⟩, rfl, by decide⟩

theorem size (port observer : Domain) : Statement (.size port observer) := fun _ _ => trivial

theorem isEmpty (port observer : Domain) : Statement (.isEmpty port observer) := fun _ _ => trivial

theorem isFull (port observer : Domain) : Statement (.isFull port observer) := fun _ _ => trivial

theorem readCursor (observer : Domain) : Statement (.readCursor observer) := fun _ _ => trivial

theorem writeCursor (observer : Domain) : Statement (.writeCursor observer) := fun _ _ => trivial

theorem readResult (output : ResultOutput) (observer : Domain) : Statement (.readResult output observer) :=
  fun _ _ => trivial

end Sys2Proof.Laws.EncodeFits
end

