-- ==== Sys2Proof/Tests/Slice0.lean ====
section
/-!
SUPPORT. Tests of the model against the words, vectors and examples of spec/ (95_test_vectors.md), each about one decode or
one step, and for every obligation that has hypotheses a witness that they can be met together.
-/

namespace Sys2Proof.Tests

open Sys2Proof Sys2Proof.Machine

/-! ### Helpers -/

/-- The state a command leads to, if it completes. -/
def nextOf : Result → Option State
  | .next t => some t
  | .fault _ => none
  | .refused _ => none

/-- The reason a command is refused for, if it is. -/
def refusalOf : Result → Option Refusal
  | .next _ => none
  | .fault _ => none
  | .refused r => some r

/-- Eight frames, slot `i` holding identifier `0x10 + i` and payload `0x1100 + i` (95_test_vectors.md P2). -/
def frames : Memory := (List.range 8).map fun i => (i, Slot.mk (0x10 + i) (BitVec.ofNat 64 (0x1100 + i)))

/-- A block with write pointer `w` and read pointer `r`, the write domain's synchronizer all at `wv` and the read domain's
all at `rv`, and a frame in every slot. -/
def block (w r wv rv : Ptr) : State :=
  { State.reset with
    wbin := w, wgray := bin2gray w, wq := [bin2gray wv, bin2gray wv]
    rbin := r, rgray := bin2gray r, rq := [bin2gray rv, bin2gray rv]
    mem := frames }

/-- Full and settled: eight frames, every view up to date. -/
def full : State := block 8 0 0 8

/-- Three frames behind the read pointer's 2, settled. -/
def three : State := block 5 2 2 5

/-- Empty and settled, the pointers at 5. -/
def drained : State := block 5 5 5 5

/-- Five frames that neither domain's view shows as they are: the reader has popped two the writer has not seen, the
writer has pushed three the reader has not seen. -/
def stale : State := block 7 2 0 4

/-- A block whose only pending event is the sample. -/
def presenting (s : State) (smp : Sample) : State := s.withPending [.sample smp .now]

/-! ### Well-formedness -/

theorem test_wellFormed_refuses_wide_id :
    (Instr.push (2 ^ 32) 0 8).wellFormed Config.defaultParams = false ∧
      (Instr.push (2 ^ 32 - 1) 0 8).wellFormed Config.defaultParams = true := by decide

theorem test_params_inRange_refuses :
    Params.inRange (Params.mk 8 0 2) = false ∧ Params.inRange (Params.mk 8 32 1) = false ∧
      Params.inRange (Params.mk 8 1 2) = true := by decide

theorem test_memory_wf_refuses :
    Memory.wf [(8, sentinel)] = false ∧ Memory.wf [(1, sentinel), (0, sentinel)] = false ∧
      Memory.wf [(3, sentinel), (3, sentinel)] = false ∧ Memory.wf frames = true := by decide

theorem test_validParams_refuses :
    ({ State.reset with params := Params.mk 7 32 2 } : State).validParams = false ∧ State.reset.validParams = true := by
  decide

/-! ### Decoding: words written out from 30_encoding.md R81 to R86 -/

/-- R81's fields from the top, against the word of 95_test_vectors.md P4 line 1. -/
theorem test_decode_push_fields :
    (8#4 ++ 0x0807060504030201#64 ++ 0x123#32 ++ 1#1).toNat = 0x10100e0c0a0806040200000247 ∧
      decode Config.defaultParams (.write (.known 0) (.known 0x10100e0c0a0806040200000247)) =
        .instr (.push 0x123 0x0807060504030201#64 8) := by decide

/-- 95_test_vectors.md T4: length 15, and length 0. -/
theorem test_decode_push_lengths :
    decode Config.defaultParams (.write (.known 0) (.known 0x1e00000000000001fe0000000f)) =
        .instr (.push 7 0xFF#64 15) ∧
      decode Config.defaultParams (.write (.known 0) (.known 0x0000000000000001fe0000000f)) =
        .instr (.push 7 0xFF#64 0) := by decide

/-- With `wr_en = 0` no other field is read (30_encoding.md R81, 95_test_vectors.md T5). -/
theorem test_decode_wrNop :
    decode Config.defaultParams (.write (.known 0) (.known 0)) = .instr .wrNop ∧
      decode Config.defaultParams (.write (.known 0) (PinWord.mk 0 (2 ^ 101 - 2))) = .instr .wrNop := by decide

/-- R words `0x1` and `0x0` (95_test_vectors.md, the encodings above section 1). -/
theorem test_decode_read_port :
    decode Config.defaultParams (.read (.known 0) (.known 1)) = .instr .pop ∧
      decode Config.defaultParams (.read (.known 0) (.known 0)) = .instr .rdNop := by decide

/-- X word `0x1`, alone and beside a push (95_test_vectors.md T9). -/
theorem test_decode_reset :
    decode Config.defaultParams (.reset (.known 1)) = .instr .reset ∧ decode Config.defaultParams (.reset (.known 0)) = .nothing ∧
      decode Config.defaultParams (.write (.known 1) (.known 0x10000000000000000000000001)) = .instr .reset := by decide

/-- The S rows of 30_encoding.md R85. -/
theorem test_decode_status :
    decode Config.defaultParams (.observe .wrCount .write) = .instr (.size .write .write) ∧
      decode Config.defaultParams (.observe .rdEmpty .read) = .instr (.isEmpty .read .read) ∧
      decode Config.defaultParams (.observe .wrFull .read) = .instr (.isFull .write .read) ∧
      decode Config.defaultParams (.observe .rdCursor .read) = .instr (.readCursor .read) ∧
      decode Config.defaultParams (.observe .wrCursor .write) = .instr (.writeCursor .write) ∧
      decode Config.defaultParams (.observe .rdPayload .read) = .instr (.readResult .rdPayload .read) := by decide

/-- The host's own reading of the opcode table's words (log 10). -/
theorem test_decodeTableWord :
    decodeTableWord 104 0x10000000000000000000000191 = some (.push 0xC8 0 8) ∧ decodeTableWord 104 0 = some .wrNop ∧
      decodeTableWord 8 1 = some .reset ∧ decodeTableWord 8 0 = some .rdNop ∧ decodeTableWord 0 0 = none := by decide

/-! ### One step of each command -/

/-- 95_test_vectors.md T9: a reset from five buffered frames. -/
theorem test_reset_clears :
    (nextOf (exec .reset stale)).map (fun t => (t.wbin, t.rbin, t.wq, t.rdValid, t.mem.length)) = some (0, 0, [0, 0], false, 0) := by
  decide

/-- 95_test_vectors.md T9: at power-on RESET runs and a write step does not. -/
theorem test_reset_first :
    (nextOf (exec .reset State.reset.powerCycle)).map State.live = some true ∧
      refusalOf (exec .wrNop State.reset.powerCycle) = some .notReset := by decide

/-- 95_test_vectors.md T4, first line. -/
theorem test_push_first :
    (nextOf (exec (.push 1 0x0101010101010101 8) State.reset)).map
      (fun t => (t.wbin, t.wgray, t.wrAck, wrCount t, Memory.lookup t.mem 0)) =
        some (1, 1, true, 1, some (Slot.mk 1 0x0101010101010101)) := by decide

/-- 95_test_vectors.md T4, second line: a ninth push. -/
theorem test_push_full :
    (nextOf (exec (.push 9 0x0909090909090909 8) full)).map (fun t => (t.wbin, t.wrAck, wrCount t, t.mem)) =
      some (8, false, 8, frames) := by decide

/-- 95_test_vectors.md T5: the pop of another domain reaches the write view after two edges. -/
theorem test_wrNop_synchronizes :
    (nextOf (exec .wrNop (block 8 1 0 8))).map (fun t => (t.wq, wrCount t)) = some ([1, 0], 8) ∧
      (nextOf (exec .wrNop { block 8 1 0 8 with wq := [1, 0] })).map (fun t => (t.wq, wrCount t)) = some ([1, 1], 7) := by
  decide

/-- 95_test_vectors.md T5: `wr_ack` falls, and a late draw keeps the stage. -/
theorem test_wrNop_old :
    (nextOf (exec .wrNop { block 8 1 0 8 with wrAck := true, draw := .old })).map (fun t => (t.wrAck, t.wq)) =
      some (false, [0, 0]) := by decide

/-- 95_test_vectors.md T6: slot 7 and the wrap of the read pointer. -/
theorem test_pop_wraps :
    (nextOf (exec .pop (block 9 7 7 9))).map (fun t => (t.rdFid, t.rdFpay, t.rdValid, t.rbin, t.rgray, rdCursor t)) =
      some (0x17, 0x1107, true, 8, 0b1100, 0) := by decide

/-- 95_test_vectors.md T6: the sentinel although `occ = 1`. -/
theorem test_pop_unseen :
    (nextOf (exec .pop { block 1 0 0 0 with rdFid := 5, rdValid := true })).map
      (fun t => (t.rdFid, t.rdFpay, t.rdValid, t.rbin, t.rq)) = some (0, 0, false, 0, [1, 0]) := by decide

/-- 95_test_vectors.md T3, its stepwise part. -/
theorem test_rdNop_draws :
    (nextOf (exec .rdNop { block 3 0 0 0 with draw := .plus 1 })).map (fun t => (t.rq, rdCount t)) = some ([1, 0], 0) ∧
      refusalOf (exec .rdNop { block 3 0 0 0 with draw := .plus 4 }) = some .drawOutsideWindow := by decide

/-- 95_test_vectors.md T7: the result is held. -/
theorem test_rdNop_holds :
    (nextOf (exec .rdNop { three with rdFid := 0x14, rdFpay := 0x1104, rdValid := true })).map
      (fun t => (t.rdFid, t.rdFpay, t.rdValid)) = some (0x14, 0x1104, true) := by decide

/-- 95_test_vectors.md T8, the line after eight pushes. -/
theorem test_size_views :
    (nextOf (exec (.size .write .write) (block 8 0 0 0))).map State.observed = some (some (.count .write 8)) ∧
      (nextOf (exec (.size .read .read) (block 8 0 0 0))).map State.observed = some (some (.count .read 0)) := by decide

/-- 95_test_vectors.md T8, the same line. -/
theorem test_isEmpty_views :
    (nextOf (exec (.isEmpty .write .write) (block 8 0 0 0))).map State.observed = some (some (.empty .write false)) ∧
      (nextOf (exec (.isEmpty .read .read) (block 8 0 0 0))).map State.observed = some (some (.empty .read true)) := by decide

/-- 95_test_vectors.md T8, the same line. -/
theorem test_isFull_views :
    (nextOf (exec (.isFull .write .write) (block 8 0 0 0))).map State.observed = some (some (.full .write true)) ∧
      (nextOf (exec (.isFull .read .read) (block 8 0 0 0))).map State.observed = some (some (.full .read false)) := by decide

/-- 95_test_vectors.md T8, its last line. -/
theorem test_readCursor :
    (nextOf (exec (.readCursor .read) (block 3 1 1 3))).map State.observed = some (some (.cursor .read 1)) := by decide

/-- 95_test_vectors.md T8, its last line. -/
theorem test_writeCursor :
    (nextOf (exec (.writeCursor .write) (block 3 1 1 3))).map State.observed = some (some (.cursor .write 3)) := by decide

/-- 44_status.md R185 and R186. -/
theorem test_readResult :
    (nextOf (exec (.readResult .rdLen .read) State.reset)).map State.observed = some (some (.rdLen 8)) ∧
      refusalOf (exec (.readResult .wrAck .read) State.reset) = some .crossDomainRead := by decide

/-! ### Shared computations -/

/-- 95_test_vectors.md T1, read down its `bin2gray` column. -/
theorem test_bin2gray :
    (List.range 16).map (fun b => (bin2gray (BitVec.ofNat 4 b)).toNat) =
      [0b0000, 0b0001, 0b0011, 0b0010, 0b0110, 0b0111, 0b0101, 0b0100,
       0b1100, 0b1101, 0b1111, 0b1110, 0b1010, 0b1011, 0b1001, 0b1000] := by decide

/-- 95_test_vectors.md T2. -/
theorem test_dist :
    ptrDist 0 8 = 8 ∧ ptrDist 0b0101 0b1011 = 6 ∧ ptrDist 0b1110 0b0011 = 5 ∧ nextPtr 15 = 0 ∧ nextIdx 6 = 7 := by decide

/-- 95_test_vectors.md T3, its table, as the members of each window. -/
theorem test_window :
    (List.range 16).filter (fun g => inWindow 0b0000 0b0000 (BitVec.ofNat 4 g)) = [0b0000] ∧
      (List.range 16).filter (fun g => inWindow 0b0000 0b0010 (BitVec.ofNat 4 g)) = [0b0000, 0b0001, 0b0010, 0b0011] ∧
      (List.range 16).filter (fun g => inWindow 0b1100 0b1101 (BitVec.ofNat 4 g)) = [0b1100, 0b1101] ∧
      (List.range 16).filter (fun g => inWindow 0b1000 0b0001 (BitVec.ofNat 4 g)) = [0b0000, 0b0001, 0b1000] := by decide

/-- A step runs what is placed for it: the host's word, and a reset line. -/
theorem test_step_places :
    (nextOf (step (State.reset.withFetchWord 104 0x10020202020202020200000003))).map (fun t => (t.wbin, t.wrAck)) =
        some (1, true) ∧
      (nextOf (step (full.withFetchWord 8 1))).map State.wbin = some 0 ∧
      refusalOf (step (presenting full (.read (PinWord.mk 0 0) (PinWord.mk 0 1)))) = some .unknownInput := by decide

/-! ### Witnesses: the hypotheses of the obligations can be met together -/

theorem exists_next {r : Result} (h : (nextOf r).isSome = true) : ∃ t, r = .next t := by
  cases r with
  | next t => exact ⟨t, rfl⟩
  | fault f => exact nomatch h
  | refused f => exact nomatch h

theorem exists_trace {cs : List (Instr × Draw)} {s : State} (h : (trace cs s).isSome = true) : ∃ r, trace cs s = some r :=
  Option.isSome_iff_exists.1 h

theorem inv_full : Inv full :=
  ⟨by decide, by decide, fun _ =>
    ⟨by decide, by decide, by decide, by decide, by decide, by decide, by decide, by decide, by decide⟩⟩

theorem inv_three : Inv three :=
  ⟨by decide, by decide, fun _ =>
    ⟨by decide, by decide, by decide, by decide, by decide, by decide, by decide, by decide, by decide⟩⟩

theorem inv_drained : Inv drained :=
  ⟨by decide, by decide, fun _ =>
    ⟨by decide, by decide, by decide, by decide, by decide, by decide, by decide, by decide, by decide⟩⟩

theorem inv_stale : Inv stale :=
  ⟨by decide, by decide, fun _ =>
    ⟨by decide, by decide, by decide, by decide, by decide, by decide, by decide, by decide, by decide⟩⟩

theorem inv_powerCycle : Inv State.reset.powerCycle := ⟨by decide, by decide, fun h => absurd h (by decide)⟩

/-- DecodeOfEncode: the widest identifier, at `ID_W = 32` and at `ID_W = 1`. -/
theorem witness_DecodeOfEncode :
    (Instr.push (2 ^ 32 - 1) (BitVec.allOnes 64) 15).wellFormed Config.defaultParams = true ∧
      (Instr.push 1 0 0).wellFormed (Params.mk 8 1 2) = true ∧ Instr.pop.wellFormed Config.defaultParams = true := by decide

/-- PushWordHasOneMeaning: the least and the greatest word. -/
theorem witness_PushWordHasOneMeaning :
    1 < 2 ^ (Config.defaultParams.idW + 69) ∧ 1 % 2 = 1 ∧
      2 ^ 101 - 1 < 2 ^ (Config.defaultParams.idW + 69) ∧ (2 ^ 101 - 1) % 2 = 1 := by decide

/-- UnknownPinsAreRefused, W words: an unknown `rst`, an unknown `wr_en`, an unknown lowest and highest field bit, only
`wr_len` unknown, no push, and `rst = 1` over unknown pins. -/
theorem witness_UnknownPinsAreRefused_write :
    (PinWord.mk 0 1).unknown.testBit 0 = true ∧
      ((PinWord.known 0).readBit 0 = some false ∧ (PinWord.mk 0 1).unknown.testBit 0 = true) ∧
      ((PinWord.mk 1 2).readBit 0 = some true ∧ (PinWord.mk 1 2).unknown.testBit 1 = true) ∧
      ((PinWord.mk 1 (2 ^ 96)).readBit 0 = some true ∧ 96 ≤ State.reset.params.idW + 64 ∧
        (PinWord.mk 1 (2 ^ 96)).unknown.testBit 96 = true) ∧
      ((PinWord.mk 1 (2 ^ 97)).readBit 0 = some true ∧
        ∀ j, j < 97 → 1 ≤ j → (PinWord.mk 1 (2 ^ 97)).unknown.testBit j = false) ∧
      (PinWord.mk 0 2).readBit 0 = some false ∧ (PinWord.known 1).readBit 0 = some true := by decide

/-- UnknownPinsAreRefused, each kind of sample as the first pending event. -/
theorem witness_UnknownPinsAreRefused_pending :
    (presenting full (.reset (PinWord.mk 0 1))).pending = [.sample (.reset (PinWord.mk 0 1)) .now] ∧
      (presenting full (.write (.known 0) (PinWord.mk 1 2))).pending = [.sample (.write (.known 0) (PinWord.mk 1 2)) .now] ∧
      (presenting full (.read (.known 0) (PinWord.mk 0 1))).pending = [.sample (.read (.known 0) (PinWord.mk 0 1)) .now] ∧
      (presenting full (.read (.known 0) (.known 1))).pending = [.sample (.read (.known 0) (.known 1)) .now] ∧
      (presenting full (.observe .wrFull .read)).pending = [.sample (.observe .wrFull .read) .now] := by decide

/-- PseudoPushesDecode: identifiers at both ends. -/
theorem witness_PseudoPushesDecode :
    0 < 2 ^ Config.defaultParams.idW ∧ 2 ^ 32 - 1 < 2 ^ Config.defaultParams.idW ∧
      (Frame.mk 7 15 0xFF).id < 2 ^ Config.defaultParams.idW := by decide

/-- StepRunsDecodedCommand: a pop, and a push that is refused at power-on. -/
theorem witness_StepRunsDecodedCommand :
    ((presenting three (.read (.known 0) (.known 1))).pending = [.sample (.read (.known 0) (.known 1)) .now] ∧
      decode three.params (.read (.known 0) (.known 1)) = .instr .pop) ∧
      decode State.reset.params (.write (.known 0) (.known 1)) = .instr (.push 0 0 0) := by decide

/-- StepsWithoutCommand: no event, an X word of 0, a power cycle. -/
theorem witness_StepsWithoutCommand :
    full.pending = [] ∧ (presenting full (.reset (.known 0))).pending = [.sample (.reset (.known 0)) .now] ∧
      (full.withPending [.powerOn]).pending = [.powerOn] := by decide

/-- ResetOverridesPorts: beside a push, beside a pop and alone. -/
theorem witness_ResetOverridesPorts :
    full.validParams = true ∧
      (presenting full (.write (.known 1) (.known 1))).pending = [.sample (.write (.known 1) (.known 1)) .now] ∧
      (presenting full (.read (.known 1) (.known 1))).pending = [.sample (.read (.known 1) (.known 1)) .now] ∧
      (presenting full (.reset (.known 1))).pending = [.sample (.reset (.known 1)) .now] := by decide

/-- ResetLeavesResetValues and NothingRunsBeforeReset: a block with valid parameters that no reset has reached. -/
theorem witness_ResetLeavesResetValues :
    State.reset.powerCycle.validParams = true ∧ full.validParams = true := by decide

theorem witness_NothingRunsBeforeReset :
    State.reset.powerCycle.validParams = true ∧ State.reset.powerCycle.live = false ∧ Instr.pop ≠ .reset ∧
      Instr.readResult .rdValid .read ≠ .reset := by decide

/-- NothingRunsBeforeReset, its last clause: two blocks before reset whose register fields differ. -/
theorem witness_NothingRunsBeforeReset_registers :
    let s : State := { full with live := false }
    let s' : State := { drained with live := false }
    s.live = false ∧ s'.live = false ∧ s.params = s'.params ∧ s.draw = s'.draw ∧ s.observed = s'.observed ∧
      s.epoch = s'.epoch ∧ s.pending = s'.pending ∧ s ≠ s' := by decide

/-- ResetForgetsTheBlock: a full block and an empty one. -/
theorem witness_ResetForgetsTheBlock :
    full.params = drained.params ∧ full.draw = drained.draw ∧ full.observed = drained.observed ∧ full.epoch = drained.epoch ∧
      full.pending = drained.pending ∧ full ≠ drained := by decide

/-- OtherCapacitiesAreRefused: both neighbours of 8. -/
theorem witness_OtherCapacitiesAreRefused :
    ({ full with params := Params.mk 7 32 2 } : State).params.cap ≠ 8 ∧
      ({ full with params := Params.mk 9 32 2 } : State).params.cap ≠ 8 := by decide

/-- GrayFormsOfFullAndEmpty: where the tests answer yes and where they answer no. -/
theorem witness_GrayFormsOfFullAndEmpty :
    (full.wgray = bin2gray full.wbin ∧ wrFull full = true) ∧ (three.wgray = bin2gray three.wbin ∧ wrFull three = false) ∧
      (drained.rgray = bin2gray drained.rbin ∧ rdEmpty drained = true) ∧
      (three.rgray = bin2gray three.rbin ∧ rdEmpty three = false) := by decide

/-- SynchronizersAdvance, its first two clauses. -/
theorem witness_SynchronizersAdvance_steps :
    (isWriteCommand .wrNop = true ∧ ∃ t, exec .wrNop stale = .next t) ∧
      (isWriteCommand (.push 1 2 8) = true ∧ ∃ t, exec (.push 1 2 8) stale = .next t) ∧
      (isReadCommand .rdNop = true ∧ ∃ t, exec .rdNop stale = .next t) ∧
      isReadCommand .pop = true ∧ ∃ t, exec .pop stale = .next t :=
  ⟨⟨rfl, exists_next (by decide)⟩, ⟨rfl, exists_next (by decide)⟩, ⟨rfl, exists_next (by decide)⟩, rfl,
    exists_next (by decide)⟩

/-- SynchronizersAdvance, its last two clauses: both ends of a window of three and of one of four. -/
theorem witness_SynchronizersAdvance_window :
    stale.ready = true ∧
      (∀ p : Ptr, ptrDist (gray2bin (firstStage stale.wq)) p ≤
        ptrDist (gray2bin (firstStage stale.wq)) (gray2bin stale.rgray) ↔ p = 0 ∨ p = 1 ∨ p = 2) ∧
      ∀ p : Ptr, ptrDist (gray2bin (firstStage stale.rq)) p ≤
        ptrDist (gray2bin (firstStage stale.rq)) (gray2bin stale.wgray) ↔ p = 4 ∨ p = 5 ∨ p = 6 ∨ p = 7 := by decide

/-- DrawsOutsideTheWindowAreRefused: one past the window, in both domains. -/
theorem witness_DrawsOutsideTheWindowAreRefused :
    (stale.withDraw (.plus 3)).ready = true ∧
      (ptrDist (gray2bin (firstStage stale.wq)) (gray2bin stale.rgray)).toNat < 3 ∧
      (ptrDist (gray2bin (firstStage stale.rq)) (gray2bin stale.wgray)).toNat < 4 := by decide

/-- PushCompletes, LengthIsIgnored, SentinelLikeFrameIsAFrame and WrNopCompletes: a ready block and a draw of its window, with a
view that is full and with one that is not. -/
theorem witness_PushCompletes :
    (full.ready = true ∧ sampled full.draw (firstStage full.wq) full.rgray = some 0 ∧ wrFull full = true) ∧
      (stale.ready = true ∧ sampled stale.draw (firstStage stale.wq) stale.rgray = some (bin2gray 2) ∧
        wrFull stale = false) ∧
      ((stale.withDraw (.plus 1)).ready = true ∧ sampled (.plus 1) (firstStage stale.wq) stale.rgray = some (bin2gray 1)) := by
  decide

theorem witness_LengthIsIgnored :
    State.reset.ready = true ∧ sampled State.reset.draw (firstStage State.reset.wq) State.reset.rgray = some 0 := by decide

theorem witness_WrNopCompletes :
    (stale.withDraw .old).ready = true ∧ sampled .old (firstStage stale.wq) stale.rgray = some 0 := by decide

/-- PopCompletes, SentinelLikeFrameIsAFrame and RdNopCompletes: an empty view, and one that is not, with a sentinel-like frame. -/
theorem witness_PopCompletes :
    (drained.ready = true ∧ sampled drained.draw (firstStage drained.rq) drained.wgray = some (bin2gray 5) ∧
        rdEmpty drained = true) ∧
      (three.ready = true ∧ sampled three.draw (firstStage three.rq) three.wgray = some (bin2gray 5) ∧
        rdEmpty three = false) := by decide

theorem witness_SentinelLikeFrameIsAFrame :
    (three.ready = true ∧ wrFull three = false ∧
        sampled three.draw (firstStage three.wq) three.rgray = some (bin2gray 2)) ∧
      ((three.storeSlot 2 (Slot.mk 0 0)).ready = true ∧ rdEmpty (three.storeSlot 2 (Slot.mk 0 0)) = false ∧
        memRead (three.storeSlot 2 (Slot.mk 0 0)) (liveSlot (ptrIdx three.rbin)) = Slot.mk 0 0 ∧
        sampled three.draw (firstStage three.rq) three.wgray = some (bin2gray 5)) := by decide

theorem witness_RdNopCompletes :
    (stale.withDraw (.plus 3)).ready = true ∧
      sampled (.plus 3) (firstStage stale.rq) stale.wgray = some (bin2gray 7) := by decide

/-- ResultsAreHeld: a read command, an observation and both outcomes of a write command. -/
theorem witness_ResultsAreHeld :
    (isWriteCommand .pop = false ∧ Instr.pop ≠ .reset ∧ ∃ t, exec .pop three = .next t) ∧
      (Instr.rdNop ≠ .pop ∧ Instr.rdNop ≠ .reset ∧ ∃ t, exec .rdNop three = .next t) ∧
      (isWriteCommand (.push 1 2 8) = true ∧ wrFull three = false ∧ ∃ t, exec (.push 1 2 8) three = .next t) ∧
      isWriteCommand (.push 1 2 8) = true ∧ wrFull full = true ∧ ∃ t, exec (.push 1 2 8) full = .next t :=
  ⟨⟨rfl, by decide, exists_next (by decide)⟩, ⟨by decide, by decide, exists_next (by decide)⟩,
    ⟨rfl, by decide, exists_next (by decide)⟩, rfl, by decide, exists_next (by decide)⟩

/-- ConditionsAreSilent: an overflow, an underflow, and a push and a pop that raise nothing. -/
theorem witness_ConditionsAreSilent :
    (raised (.push 9 9 8) full = some .overflow ∧ ∃ t, exec (.push 9 9 8) full = .next t) ∧
      (raised .pop drained = some .underflow ∧ ∃ t, exec .pop drained = .next t) ∧
      (raised (.push 9 9 8) three = none ∧ ∃ t, exec (.push 9 9 8) three = .next t) ∧
      raised .pop three = none ∧ ∃ t, exec .pop three = .next t :=
  ⟨⟨by decide, exists_next (by decide)⟩, ⟨by decide, exists_next (by decide)⟩, ⟨by decide, exists_next (by decide)⟩,
    by decide, exists_next (by decide)⟩

/-- SizeCompletes, IsEmptyCompletes, IsFullCompletes, CursorsComplete, ReadResultCompletes: a ready block; one whose views
differ from the occupancy, and one that is quiescent. -/
theorem witness_SizeCompletes :
    (State.reset.ready = true ∧ Inv stale ∧ stale.live = true ∧ rdCount stale ≠ occ stale ∧ wrCount stale ≠ occ stale) ∧
      Inv three ∧ three.live = true ∧ Quiescent three :=
  ⟨⟨by decide, inv_stale, by decide, by decide, by decide⟩, inv_three, by decide, by decide⟩

theorem witness_IsEmptyCompletes :
    three.ready = true ∧ (rdEmpty three = false ∧ ∃ t, exec .pop three = .next t) ∧
      Inv drained ∧ drained.live = true ∧ wrEmpty drained = true :=
  ⟨by decide, ⟨by decide, exists_next (by decide)⟩, inv_drained, by decide, by decide⟩

theorem witness_IsFullCompletes :
    full.ready = true ∧ (wrFull three = false ∧ ∃ t, exec (.push 1 2 0) three = .next t) ∧
      Inv full ∧ full.live = true ∧ rdFull full = true :=
  ⟨by decide, ⟨by decide, exists_next (by decide)⟩, inv_full, by decide, by decide⟩

theorem witness_CursorsComplete : stale.ready = true ∧ stale.rbin = 2 ∧ stale.wbin = 7 := by decide

theorem witness_ReadResultCompletes : stale.ready = true ∧ ∃ t, exec .reset stale = .next t :=
  ⟨by decide, exists_next (by decide)⟩

/-- CrossDomainReadsAreRefused: an observation from the other domain, and one from its own. -/
theorem witness_CrossDomainReadsAreRefused :
    three.ready = true ∧
      (observation (.size .write .read) = some (.wrCount, .read) ∧ outputDomain .wrCount ≠ .read) ∧
      observation (.readCursor .read) = some (.rdCursor, .read) ∧ outputDomain .rdCursor = .read := by decide

/-- EveryCommandCompletes: both draws, a port command and an observation. -/
theorem witness_EveryCommandCompletes :
    (three.ready = true ∧ three.draw = .now ∧ observation .pop = none) ∧
      ((three.withDraw .old).ready = true ∧ (three.withDraw .old).draw = .old ∧
        observation (.isFull .read .read) = some (.rdFull, .read) ∧ outputDomain .rdFull = .read) := by decide

/-- PointersMoveOnlyOnSuccess: a push, a pop and a reset that move a pointer. -/
theorem witness_PointersMoveOnlyOnSuccess :
    (nextOf (exec (.push 1 2 8) three)).map (fun t => decide (t.wbin ≠ three.wbin)) = some true ∧
      (nextOf (exec .pop three)).map (fun t => decide (t.rbin ≠ three.rbin)) = some true ∧
      (nextOf (exec .reset three)).map (fun t => decide (t.wbin ≠ three.wbin ∧ t.rbin ≠ three.rbin)) = some true := by decide

/-- DomainsAreIsolated, its last two clauses: two states that agree where the clause asks, and differ elsewhere. -/
theorem witness_DomainsAreIsolated_write :
    let s' : State := { three with rq := [0, 0], rdFid := 3, rdValid := true }
    isWriteCommand (.push 1 2 8) = true ∧ WriteRegsSame three s' ∧ s'.mem = three.mem ∧ s'.rgray = three.rgray ∧
      s'.params = three.params ∧ s'.draw = three.draw ∧ s' ≠ three ∧
      (∃ t, exec (.push 1 2 8) three = .next t) ∧ ∃ t, exec (.push 1 2 8) s' = .next t :=
  ⟨rfl, ⟨rfl, rfl, rfl, rfl⟩, rfl, rfl, rfl, rfl, by decide, exists_next (by decide), exists_next (by decide)⟩

theorem witness_DomainsAreIsolated_read :
    let s' : State := { three with wq := [0, 0], wrAck := true }
    isReadCommand .pop = true ∧ ReadRegsSame three s' ∧ StorageSame three s' ∧ s'.wgray = three.wgray ∧
      s'.params = three.params ∧ s'.draw = three.draw ∧ s' ≠ three ∧
      (∃ t, exec .pop three = .next t) ∧ ∃ t, exec .pop s' = .next t :=
  ⟨rfl, ⟨rfl, rfl, rfl, rfl, rfl, rfl⟩, fun _ => rfl, rfl, rfl, rfl, by decide, exists_next (by decide),
    exists_next (by decide)⟩

/-- ResetMeetsTheInvariant: the bounds of the parameters. -/
theorem witness_ResetMeetsTheInvariant :
    (Params.mk 8 1 2).cap = 8 ∧ 1 ≤ (Params.mk 8 1 2).idW ∧ 2 ≤ (Params.mk 8 1 2).syncStages := by decide

/-- StepKeepsTheInvariant and StepKeepsStorageCanonical: a pop, an ill-timed push, a power cycle, and the first reset. -/
theorem witness_StepKeepsTheInvariant :
    (Inv stale ∧ ∃ t, step stale = .next t) ∧ Inv State.reset.powerCycle ∧ ∃ t, step State.reset.powerCycle = .next t :=
  ⟨⟨inv_stale, exists_next (by decide)⟩, inv_powerCycle, exists_next (by decide)⟩

theorem witness_StepKeepsStorageCanonical :
    (presenting three (.write (.known 0) (.known 1))).mem.wf = true ∧
      ∃ t, step (presenting three (.write (.known 0) (.known 1))) = .next t :=
  ⟨by decide, exists_next (by decide)⟩

/-- IsEmptyCompletes and IsFullCompletes, their clauses about views that lag: blocks the invariant holds of. -/
theorem witness_views_that_lag :
    (Inv (block 1 0 0 0) ∧ rdEmpty (block 1 0 0 0) = true ∧ occ (block 1 0 0 0) = 1) ∧
      (Inv (block 1 1 0 1) ∧ wrEmpty (block 1 1 0 1) = false ∧ occ (block 1 1 0 1) = 0) ∧
      (Inv (block 8 1 0 8) ∧ wrFull (block 8 1 0 8) = true ∧ occ (block 8 1 0 8) = 7) :=
  ⟨⟨⟨by decide, by decide, fun _ =>
      ⟨by decide, by decide, by decide, by decide, by decide, by decide, by decide, by decide, by decide⟩⟩,
      by decide, by decide⟩,
    ⟨⟨by decide, by decide, fun _ =>
      ⟨by decide, by decide, by decide, by decide, by decide, by decide, by decide, by decide, by decide⟩⟩,
      by decide, by decide⟩,
    ⟨by decide, by decide, fun _ =>
      ⟨by decide, by decide, by decide, by decide, by decide, by decide, by decide, by decide, by decide⟩⟩,
      by decide, by decide⟩

/-- ViewsAreConservative and SynchronizerChainsAreOrdered: views that lag, a view that is not full and one that is not empty. -/
theorem witness_ViewsAreConservative :
    Inv stale ∧ stale.live = true ∧ wrFull stale = false ∧ rdEmpty stale = false ∧ rdCount stale = 2 ∧ occ stale = 5 ∧
      wrCount stale = 7 :=
  ⟨inv_stale, by decide, by decide, by decide, by decide, by decide, by decide⟩

theorem witness_SynchronizerChainsAreOrdered :
    Inv stale ∧ stale.live = true ∧ chainDist stale.rbin stale.wq = 2 ∧ chainDist stale.wbin stale.rq = 3 :=
  ⟨inv_stale, by decide, by decide, by decide⟩

/-- FavourableViewsAreStable, its last two clauses: an accepted and a rejected push, a pop that returns a frame and one that does
not, each beside the edge alone. -/
theorem witness_FavourableViewsAreStable_counts :
    (Inv stale ∧ stale.live = true ∧ (∃ n, exec .wrNop stale = .next n) ∧
        (nextOf (exec (.push 1 2 8) stale)).map State.wrAck = some true) ∧
      (Inv full ∧ full.live = true ∧ (∃ n, exec .wrNop full = .next n) ∧
        (nextOf (exec (.push 1 2 8) full)).map State.wrAck = some false) ∧
      ((∃ n, exec .rdNop stale = .next n) ∧ (nextOf (exec .pop stale)).map State.rdValid = some true) ∧
      (Inv drained ∧ drained.live = true ∧ (∃ n, exec .rdNop drained = .next n) ∧
        (nextOf (exec .pop drained)).map State.rdValid = some false) :=
  ⟨⟨inv_stale, by decide, exists_next (by decide), by decide⟩, ⟨inv_full, by decide, exists_next (by decide), by decide⟩,
    ⟨exists_next (by decide), by decide⟩, inv_drained, by decide, exists_next (by decide), by decide⟩

/-- FavourableViewsAreStable: two pops and an observation beside the write view, two pushes beside the read view, and an edge
that changes each view. -/
theorem witness_FavourableViewsAreStable :
    ((∀ c ∈ [(Instr.pop, Draw.now), (Instr.isFull .read .read, .now), (Instr.pop, .old)],
        isWriteCommand c.1 = false ∧ c.1 ≠ .reset) ∧
      ∃ r, trace [(.pop, .now), (.isFull .read .read, .now), (.pop, .old)] three = some r) ∧
      ((∀ c ∈ [(Instr.push 1 1 8, Draw.now), (Instr.push 2 2 8, .old)], isReadCommand c.1 = false ∧ c.1 ≠ .reset) ∧
        ∃ r, trace [(.push 1 1 8, .now), (.push 2 2 8, .old)] three = some r) ∧
      (Inv stale ∧ stale.live = true ∧ ∃ t, exec .wrNop stale = .next t) ∧ ∃ t, exec .rdNop stale = .next t :=
  ⟨⟨by decide, exists_trace (by decide)⟩, ⟨by decide, exists_trace (by decide)⟩,
    ⟨inv_stale, by decide, exists_next (by decide)⟩, exists_next (by decide)⟩

/-- PopsReadPushedSlots: a pop that returns a frame. -/
theorem witness_PopsReadPushedSlots :
    Inv three ∧ (nextOf (exec .pop three)).map State.rdValid = some true := ⟨inv_three, by decide⟩

/-- CommandsActOnTheQueue: an accepted push, a successful pop, a pop that finds nothing, a reset. -/
theorem witness_CommandsActOnTheQueue :
    Inv three ∧ (Instr.push 1 2 8).wellFormed three.params = true ∧ Instr.pop.wellFormed three.params = true ∧
      (∃ t, exec (.push 1 2 8) three = .next t) ∧ (∃ t, exec .pop three = .next t) ∧ (∃ t, exec .reset three = .next t) ∧
      Inv drained ∧ (nextOf (exec .pop drained)).map State.rdValid = some false :=
  ⟨inv_three, by decide, by decide, exists_next (by decide), exists_next (by decide), exists_next (by decide), inv_drained,
    by decide⟩

/-- FramesLeaveInPushOrder: a push, its crossing and its pop, from an empty buffer. -/
theorem witness_FramesLeaveInPushOrder :
    Inv drained ∧ drained.live = true ∧ contents drained = [] ∧
      (∀ c ∈ [(Instr.push 1 2 8, Draw.now), (Instr.rdNop, .now), (Instr.rdNop, .now), (Instr.pop, .now)],
        c.1 ≠ .reset ∧ c.1.wellFormed drained.params = true) ∧
      ∃ r, trace [(.push 1 2 8, .now), (.rdNop, .now), (.rdNop, .now), (.pop, .now)] drained = some r :=
  ⟨inv_drained, by decide, by decide, by decide, exists_trace (by decide)⟩

/-- SimultaneousOutcomesAgree: a push and a pop with different draws, in both orders. -/
theorem witness_SimultaneousOutcomesAgree :
    Inv stale ∧ stale.live = true ∧ isWriteCommand (.push 1 2 8) = true ∧ isReadCommand .pop = true ∧
      ((nextOf (exec (.push 1 2 8) (stale.withDraw (.plus 1)))).bind
        fun a => nextOf (exec .pop (a.withDraw .now))).isSome = true ∧
      ((nextOf (exec .pop (stale.withDraw .now))).bind
        fun b => nextOf (exec (.push 1 2 8) (b.withDraw (.plus 1)))).isSome = true :=
  ⟨inv_stale, by decide, rfl, rfl, by decide, by decide⟩

/-- QuiescentBlockIsTheSourceBuffer: full, empty and between. -/
theorem witness_QuiescentBlockIsTheSourceBuffer :
    (Inv full ∧ full.live = true ∧ Quiescent full ∧ ∃ t, exec (.push 9 9 8) full = .next t) ∧
      (Inv drained ∧ drained.live = true ∧ Quiescent drained ∧ ∃ t, exec .pop drained = .next t) ∧
      (Inv three ∧ three.live = true ∧ Quiescent three ∧ (∃ t, exec .pop three = .next t) ∧
        ∃ t, exec (.push 9 9 8) three = .next t) :=
  ⟨⟨inv_full, by decide, by decide, exists_next (by decide)⟩, ⟨inv_drained, by decide, by decide, exists_next (by decide)⟩,
    inv_three, by decide, by decide, exists_next (by decide), exists_next (by decide)⟩

/-- SettleReachesQuiescence: a block that is not quiescent. -/
theorem witness_SettleReachesQuiescence : Inv stale ∧ stale.live = true ∧ ¬ Quiescent stale :=
  ⟨inv_stale, by decide, by decide⟩

/-- Edges that all draw `now` run on from every block that has been reset. -/
theorem runs_prompt (m : Nat) : ∀ (f : Nat → IdleEdge) (s : State), (∀ k, f k = .write .now ∨ f k = .read .now) →
    s.ready = true → ∃ t, runSteps m (s.withPending (idleEvents s.params f m)) = .next t := by
  induction m with
  | zero => exact fun f s _ _ => ⟨_, rfl⟩
  | succ m ih =>
    intro f s hf hs
    rw [idleEvents_succ]
    rcases hf 0 with h | h <;> rw [h]
    · rw [runSteps_succ (step_idle_write.2 ⟨hs, _, sampled_now _ _, rfl⟩)]
      exact ih _ (((s.withDraw .now).setWrAck false).setWq (shiftIn s.params.syncStages s.rgray s.wq)) (fun k => hf (k + 1)) hs
    · rw [runSteps_succ (step_idle_read.2 ⟨hs, _, sampled_now _ _, rfl⟩)]
      exact ih _ ((s.withDraw .now).setRq (shiftIn s.params.syncStages s.wgray s.rq)) (fun k => hf (k + 1)) hs

/-- A read edge whose draw advances the stage by one of three positions, then edges of both clocks by turns. -/
def turns (n : Nat) : IdleEdge :=
  if n = 0 then .read (.plus 1) else if n % 2 = 0 then .write .now else .read .now

theorem runs_turns (m : Nat) : ∃ t, runSteps m (stale.withPending (idleEvents stale.params turns m)) = .next t := by
  cases m with
  | zero => exact ⟨_, rfl⟩
  | succ m =>
    rw [idleEvents_succ, show turns 0 = .read (.plus 1) from rfl,
      runSteps_succ (step_idle_read.2 ⟨by decide, bin2gray 5, by decide, rfl⟩)]
    refine runs_prompt m _ ((stale.withDraw (.plus 1)).setRq (shiftIn 2 (bin2gray 5) stale.rq)) (fun k => ?_) (by decide)
    simp only [turns, Nat.add_one_ne_zero, if_false]
    split <;> simp

/-- FairRunsEnd: a program of a push and a pop. -/
theorem witness_FairRunsEnd_program :
    Inv stale ∧ (nextOf (runSteps 2 (stale.withPending (program stale.params [pushf (Frame.mk 1 3 2), .pop .old])))).map
      State.live = some true := ⟨inv_stale, by decide⟩

/-- FairRunsEnd: no program, and fair edges with a draw strictly inside the window. -/
theorem witness_FairRunsEnd :
    Inv stale ∧ runSteps 0 (stale.withPending []) = .next stale ∧ stale.live = true ∧ FairIdle stale turns := by
  refine ⟨inv_stale, rfl, by decide, fun port n => ?_⟩
  cases port with
  | write =>
    obtain ⟨t, ht⟩ := runs_turns (2 * n + 2)
    refine ⟨2 * n + 2, t, by omega, ht, ?_⟩
    rw [show turns (2 * n + 2) = .write .now by simp [turns, show (2 * n + 2) % 2 = 0 by omega]]
    exact sampled_now _ _
  | read =>
    obtain ⟨t, ht⟩ := runs_turns (2 * n + 1)
    refine ⟨2 * n + 1, t, by omega, ht, ?_⟩
    rw [show turns (2 * n + 1) = .read .now by simp [turns]]
    exact sampled_now _ _

/-- PushReachesReaderAfterStages: an empty quiescent block; no edge, and one edge, before the pop. -/
theorem witness_PushReachesReaderAfterStages :
    Inv drained ∧ drained.live = true ∧ Quiescent drained ∧ contents drained = [] ∧ 1 < 2 ^ drained.params.idW ∧
      (∃ a, exec (.push 1 2 8) drained = .next a) ∧
      [Draw.old].length < drained.params.syncStages ∧
      ((nextOf (exec (.push 1 2 8) drained)).bind fun a => trace [(.pop, .now)] a).isSome = true ∧
      ((nextOf (exec (.push 1 2 8) drained)).bind fun a => trace [(.rdNop, .now), (.pop, .now)] a).isSome = true :=
  ⟨inv_drained, by decide, by decide, by decide, by decide, exists_next (by decide), by decide, by decide, by decide⟩

/-- PopReachesWriterAfterStages: a full quiescent block; no edge, and one edge, before the push (95_test_vectors.md P3). -/
theorem witness_PopReachesWriterAfterStages :
    Inv full ∧ full.live = true ∧ Quiescent full ∧ occ full = 8 ∧ (∃ a, exec .pop full = .next a) ∧
      [Draw.now].length < full.params.syncStages ∧
      ((nextOf (exec .pop full)).bind fun a => trace [(.push 0x99 0xAA 8, .now)] a).isSome = true ∧
      ((nextOf (exec .pop full)).bind fun a => trace [(.wrNop, .now), (.push 0x99 0xAA 8, .now)] a).isSome = true :=
  ⟨inv_full, by decide, by decide, by decide, exists_next (by decide), by decide, by decide, by decide⟩

end Sys2Proof.Tests
end

