-- ==== Sys2Proof/Proofs/Isolation.lean ====
section
/-!
PROOFS. What the write agent and the read agent write and read (10_state.md R23), and when a pointer moves (R45).
-/

namespace Sys2Proof.Machine

/-! ### What each kind of command leaves alone -/

/-- A write step either holds the pointer and the slots, with `wr_ack` 0, or is an accepted push (42_write_port.md R140,
R141, R145); beside it the synchronizer advances. -/
theorem exec_write_cases {i : Instr} {s t : State} (hi : isWriteCommand i = true) (h : exec i s = .next t) :
    ∃ q, t = (s.setWrAck false).setWq q ∨
      ∃ id v len, i = .push id v len ∧ wrFull s = false ∧
        t = (((s.storeSlot (ptrIdx s.wbin) (Slot.mk id v)).setWptr (nextPtr s.wbin)).setWrAck true).setWq q := by
  cases i with
  | push id v len =>
    obtain ⟨-, g, -, rfl⟩ := exec_push_next.1 h
    refine ⟨shiftIn s.params.syncStages g s.wq, ?_⟩
    cases hf : wrFull s with
    | true => exact .inl rfl
    | false => exact .inr ⟨id, v, len, rfl, rfl, rfl⟩
  | wrNop =>
    obtain ⟨-, g, -, rfl⟩ := exec_wrNop_next.1 h
    exact ⟨_, .inl rfl⟩
  | _ => cases hi

/-- A read step holds the result and the pointer, or is a pop, of the sentinel with the pointer held or of a live slot
(43_read_port.md R160, R161, R165); beside it the synchronizer advances. -/
theorem exec_read_cases {i : Instr} {s t : State} (hi : isReadCommand i = true) (h : exec i s = .next t) :
    ∃ q, t = s.setRq q ∨ t = (s.setResult (memRead s sentinelSlot) false).setRq q ∨
      i = .pop ∧ rdEmpty s = false ∧
        t = ((s.setResult (memRead s (liveSlot (ptrIdx s.rbin))) true).setRptr (nextPtr s.rbin)).setRq q := by
  cases i with
  | pop =>
    obtain ⟨-, g, -, rfl⟩ := exec_pop_next.1 h
    refine ⟨shiftIn s.params.syncStages g s.rq, .inr ?_⟩
    cases he : rdEmpty s with
    | true => exact .inl rfl
    | false => exact .inr ⟨rfl, rfl, rfl⟩
  | rdNop =>
    obtain ⟨-, g, -, rfl⟩ := exec_rdNop_next.1 h
    exact ⟨_, .inl rfl⟩
  | _ => cases hi

theorem exec_write_frame {i : Instr} {s t : State} (hi : isWriteCommand i = true) (h : exec i s = .next t) :
    ReadRegsSame s t ∧ memRead t sentinelSlot = memRead s sentinelSlot ∧ HostSame s t := by
  obtain ⟨q, rfl | ⟨id, v, len, -, -, rfl⟩⟩ := exec_write_cases hi h <;>
    simp [ReadRegsSame, HostSame, RestSame]

theorem exec_read_frame {i : Instr} {s t : State} (hi : isReadCommand i = true) (h : exec i s = .next t) :
    WriteRegsSame s t ∧ StorageSame s t ∧ HostSame s t := by
  obtain ⟨q, rfl | rfl | ⟨-, -, rfl⟩⟩ := exec_read_cases hi h <;>
    simp [WriteRegsSame, StorageSame, HostSame, RestSame]

theorem exec_observation_frame {i : Instr} {o : Output} {d : Domain} {s t : State} (hi : observation i = some (o, d))
    (h : exec i s = .next t) : OnlyObserved s t (outputValue s o) := by
  rw [exec_observation hi] at h
  obtain ⟨-, -, rfl⟩ := observe_next.1 h
  simp [OnlyObserved, WriteRegsSame, ReadRegsSame, StorageSame, RestSame]

/-! ### What each agent reads -/

/-- Two write-agent steps whose synchronizers sample the same source under the same draw leave the same write domain and
slots, when the effects beside the synchronizers do. -/
theorem writeStep_congr {s s' k k' t t' : State} (hq : s'.wq = s.wq) (hg : s'.rgray = s.rgray)
    (hp : s'.params = s.params) (hd : s'.draw = s.draw)
    (hk : k'.wbin = k.wbin ∧ k'.wgray = k.wgray ∧ k'.wrAck = k.wrAck ∧ k'.mem = k.mem)
    (h : writeStep s k = .next t) (h' : writeStep s' k' = .next t') : WriteRegsSame t t' ∧ t'.mem = t.mem := by
  obtain ⟨-, g, hs, rfl⟩ := writeStep_next.1 h
  obtain ⟨-, g', hs', rfl⟩ := writeStep_next.1 h'
  obtain rfl : g = g' := by simpa [hq, hg, hd, hs] using hs'
  simp [WriteRegsSame, hk, hp, hq]

/-- Two read-agent steps whose synchronizers sample the same source under the same draw leave the same read domain, when
the effects beside the synchronizers do. -/
theorem readStep_congr {s s' k k' t t' : State} (hq : s'.rq = s.rq) (hg : s'.wgray = s.wgray)
    (hp : s'.params = s.params) (hd : s'.draw = s.draw)
    (hk : k'.rbin = k.rbin ∧ k'.rgray = k.rgray ∧ k'.rdFid = k.rdFid ∧ k'.rdFpay = k.rdFpay ∧ k'.rdValid = k.rdValid)
    (h : readStep s k = .next t) (h' : readStep s' k' = .next t') : ReadRegsSame t t' := by
  obtain ⟨-, g, hs, rfl⟩ := readStep_next.1 h
  obtain ⟨-, g', hs', rfl⟩ := readStep_next.1 h'
  obtain rfl : g = g' := by simpa [hq, hg, hd, hs] using hs'
  simp [ReadRegsSame, hk, hp, hq]

/-- A write step reads its own domain, the slots, the other domain's Gray pointer and the draw alone. -/
theorem exec_write_congr {i : Instr} {s s' t t' : State} (hi : isWriteCommand i = true) (hw : WriteRegsSame s s')
    (hm : s'.mem = s.mem) (hg : s'.rgray = s.rgray) (hp : s'.params = s.params) (hd : s'.draw = s.draw)
    (h : exec i s = .next t) (h' : exec i s' = .next t') : WriteRegsSame t t' ∧ t'.mem = t.mem := by
  obtain ⟨hb, hy, hq, -⟩ := hw
  cases i with
  | push id v len =>
    have hf : wrFull s' = wrFull s := by simp only [wrFull, wrCount_congr hp hq hb]
    refine writeStep_congr hq hg hp hd ?_ h h'
    rw [hf]
    cases wrFull s <;> simp [hb, hy, hm]
  | wrNop =>
    exact writeStep_congr (k := s.setWrAck false) (k' := s'.setWrAck false) hq hg hp hd ⟨hb, hy, rfl, hm⟩ h h'
  | _ => cases hi

/-- A read step reads its own domain, the slots, the other domain's Gray pointer and the draw alone. -/
theorem exec_read_congr {i : Instr} {s s' t t' : State} (hi : isReadCommand i = true) (hr : ReadRegsSame s s')
    (hm : StorageSame s s') (hg : s'.wgray = s.wgray) (hp : s'.params = s.params) (hd : s'.draw = s.draw)
    (h : exec i s = .next t) (h' : exec i s' = .next t') : ReadRegsSame t t' := by
  obtain ⟨hb, hy, hq, hres⟩ := hr
  cases i with
  | pop =>
    have he : rdEmpty s' = rdEmpty s := by simp only [rdEmpty, rdCount_congr hp hq hb]
    refine readStep_congr hq hg hp hd ?_ h h'
    rw [he]
    cases rdEmpty s <;> simp [hb, hy, hm _]
  | rdNop => exact readStep_congr hq hg hp hd ⟨hb, hy, hres⟩ h h'
  | _ => cases hi

/-- Settles O36: a frame of each agent's steps, and two runs of one agent from states that agree on what it may read. -/
theorem domainsAreIsolated : Obligations.DomainsAreIsolated :=
  ⟨fun _ _ _ => exec_write_frame, fun _ _ _ => exec_read_frame, fun _ _ _ _ _ => exec_write_congr,
    fun _ _ _ _ _ => exec_read_congr⟩

/-! ### When a pointer moves -/

/-- Settles O35: outside RESET each pointer is in the frame of every command but its own agent's, and there only the
accepted push or the successful pop moves it. -/
theorem pointersMoveOnlyOnSuccess : Obligations.PointersMoveOnlyOnSuccess := by
  refine ⟨fun i s t h hne => ?_, fun i s t h hne => ?_⟩
  · obtain hi | hi | hi | ⟨o, d, hi⟩ := command_cases i
    · exact .inl hi
    · obtain ⟨q, rfl | ⟨id, v, len, rfl, hf, rfl⟩⟩ := exec_write_cases hi h
      · exact absurd rfl hne
      · exact .inr ⟨id, v, len, rfl, hf, rfl⟩
    · obtain ⟨⟨hb, -⟩, -⟩ := exec_read_frame hi h
      exact absurd hb hne
    · obtain ⟨-, ⟨hb, -⟩, -⟩ := exec_observation_frame hi h
      exact absurd hb hne
  · obtain hi | hi | hi | ⟨o, d, hi⟩ := command_cases i
    · exact .inl hi
    · obtain ⟨⟨hb, -⟩, -⟩ := exec_write_frame hi h
      exact absurd hb hne
    · obtain ⟨q, rfl | rfl | ⟨rfl, he, rfl⟩⟩ := exec_read_cases hi h
      · exact absurd rfl hne
      · exact absurd rfl hne
      · exact .inr ⟨rfl, he, rfl⟩
    · obtain ⟨-, -, ⟨hb, -⟩, -⟩ := exec_observation_frame hi h
      exact absurd hb hne

end Sys2Proof.Machine
end

