-- ==== Sys2Proof/Proofs/Reset.lean ====
section
/-!
PROOFS. What RESET leaves (10_state.md R42, 70_reset_and_hazards.md R221), and what runs before the first reset
(10_state.md R39).
-/

namespace Sys2Proof.Machine

/-! ### The views after a reset -/

@[simp] theorem stage_replicate_zero (n m : Nat) : stage n (List.replicate m 0#4) = 0#4 := by
  simp only [stage, BitVec.ofNat_eq_ofNat, List.getD_eq_getElem?_getD, List.getElem?_getD_replicate_default_eq]

@[simp] theorem gray2bin_zero : gray2bin 0#4 = 0#4 := by decide

@[simp] theorem wrCount_resetBlock (s : State) : wrCount s.resetBlock = 0 := by simp [wrCount, ptrDist]

@[simp] theorem rdCount_resetBlock (s : State) : rdCount s.resetBlock = 0 := by simp [rdCount, ptrDist]

/-- Settles O10: the fields of `resetBlock`, and the views computed from them. -/
theorem resetLeavesResetValues : Obligations.ResetLeavesResetValues := by
  refine ⟨fun s hv => ⟨s.resetBlock, exec_reset_next.2 ⟨hv, rfl⟩, ?_⟩, ?_⟩
  · simp [Memory.lookup, sentinel, occ, ptrDist_self, wrEmpty, rdEmpty, wrFull, rdFull, Config.cap,
      wrCursor, rdCursor, ptrIdx]
  · decide

/-! ### Before the first reset -/

theorem whenValid_of_validParams {s : State} (h : s.validParams = true) (r : Result) : whenValid s r = r := by
  simp only [State.validParams, Bool.and_eq_true, decide_eq_true_eq] at h
  simp [whenValid, h]

/-- Whether a build's commands have a meaning depends on its parameters alone (00_scope.md R7, R8). -/
theorem whenValid_congr {s s' : State} (hp : s.params = s'.params) (r : Result) : whenValid s r = whenValid s' r := by
  simp only [whenValid, hp]

/-- Every command but RESET is guarded by `live` (10_state.md R39). -/
theorem exec_eq_whenLive {i : Instr} (hi : i ≠ .reset) (s : State) : ∃ r, exec i s = whenLive s r := by
  cases i with
  | reset => exact absurd rfl hi
  | _ => exact ⟨_, rfl⟩

theorem exec_of_not_live {i : Instr} {s : State} (hi : i ≠ .reset) (hl : s.live = false) :
    exec i s = whenValid s (.refused .notReset) := by
  obtain ⟨r, hr⟩ := exec_eq_whenLive hi s
  simp [hr, whenLive, hl]

/-- RESET's effect depends on the parameters and the model's own fields alone. -/
theorem resetBlock_congr {s s' : State} (hp : s.params = s'.params) (hd : s.draw = s'.draw)
    (ho : s.observed = s'.observed) (he : s.epoch = s'.epoch) (hpend : s.pending = s'.pending) :
    s.resetBlock = s'.resetBlock := by
  simp only [State.resetBlock, hp, hd, ho, he, hpend]

/-- Settles O12: while `live = 0` a command other than RESET answers by the parameters alone, and RESET reads no
register. -/
theorem nothingRunsBeforeReset : Obligations.NothingRunsBeforeReset := by
  refine ⟨fun s => ⟨rfl, fun _ => rfl⟩, fun s hv => ⟨s.resetBlock, exec_reset_next.2 ⟨hv, rfl⟩, rfl⟩,
    fun i s hv hl hi => ?_, fun i s s' hl hl' hp hd ho he hpend => ?_⟩
  · rw [exec_of_not_live hi hl, whenValid_of_validParams hv]
  · by_cases hi : i = .reset
    · subst hi
      show whenValid s (.next s.resetBlock) = whenValid s' (.next s'.resetBlock)
      rw [resetBlock_congr hp hd ho he hpend, whenValid_congr hp]
    · rw [exec_of_not_live hi hl, exec_of_not_live hi hl', whenValid_congr hp]

end Sys2Proof.Machine
end

