-- ==== Sys2Proof/Proofs/Encoding.lean ====
section
/-!
PROOFS. What a word whose pins are all 0 or 1 decodes to (30_encoding.md R81 to R87).
-/

namespace Sys2Proof

/-! ### Reading known pins -/

@[simp] theorem PinWord.readBit_known (n i : Nat) : (PinWord.known n).readBit i = some (n.testBit i) := by
  simp [readBit, known]

@[simp] theorem PinWord.rawField_known (n lo k : Nat) : (PinWord.known n).rawField lo k = n / 2 ^ lo % 2 ^ k := by
  simp [rawField, known, Nat.shiftRight_eq_div_pow]

@[simp] theorem PinWord.readField_known (n lo k : Nat) :
    (PinWord.known n).readField lo k = some (n / 2 ^ lo % 2 ^ k) := by
  rw [← rawField_known]
  simp [readField, known]

/-- A number cut to a vector's width makes the same vector. -/
theorem ofNat_mod_two_pow (k n : Nat) : BitVec.ofNat k (n % 2 ^ k) = BitVec.ofNat k n :=
  BitVec.eq_of_toNat_eq (by simp only [BitVec.toNat_ofNat, Nat.mod_mod])

/-! ### Decoding known words -/

/-- The X word (30_encoding.md R83). -/
theorem decodeReset_known (x : Nat) (port : Decoded) :
    decodeReset (.known x) port = if x % 2 = 1 then .instr .reset else port := by
  rcases Nat.mod_two_eq_zero_or_one x with h | h <;> simp [decodeReset, h]

/-- The R word (30_encoding.md R82). -/
theorem decodeRead_known (r : Nat) :
    decodeRead (.known r) = if r % 2 = 1 then .instr .pop else .instr .rdNop := by
  rcases Nat.mod_two_eq_zero_or_one r with h | h <;> simp [decodeRead, h]

/-- The W word (30_encoding.md R81, R86): `BitVec.ofNat` keeps exactly the field's bits, so its upper end is not
written. -/
theorem decodeWrite_known (p : Params) (w : Nat) :
    decodeWrite p (.known w) =
      if w % 2 = 1 then
        .instr (.push (w / 2 % 2 ^ p.idW) (BitVec.ofNat 64 (w / 2 ^ (p.idW + 1))) (BitVec.ofNat 4 (w / 2 ^ (p.idW + 65))))
      else .instr .wrNop := by
  rcases Nat.mod_two_eq_zero_or_one w with h | h
  · simp [decodeWrite, h]
  · simp only [decodeWrite, PinWord.readBit_known, PinWord.readField_known, PinWord.rawField_known, Nat.testBit_zero, h,
      decide_true, if_true, pow_one, ofNat_mod_two_pow]

namespace Machine

/-- The length is sampled and ignored (30_encoding.md R87, 42_write_port.md R142). -/
theorem exec_push_len_irrelevant (id : Nat) (v : Payload) (len len' : Len) (s : State) :
    exec (.push id v len) s = exec (.push id v len') s := rfl

/-- Settles O4: each word is decoded from its own bits, the X word first, and a push does not read its length. -/
theorem noWordIsIllegal : Obligations.NoWordIsIllegal := by
  refine ⟨fun p x w => ?_, fun p x r => ?_, fun p x => decodeReset_known x .nothing, exec_push_len_irrelevant⟩
  · rw [decode, decodeReset_known, decodeWrite_known]
  · rw [decode, decodeReset_known, decodeRead_known]

end Machine
end Sys2Proof
end

