-- ==== Sys2Proof/Proofs/CircularIndex.lean ====
section
/-!
PROOFS. The circular index generator (40_circular_index.md): the index advance by its number, the pointer advance by its
two fields.
-/

namespace Sys2Proof.Machine

/-- The wraparound comparison of R101 and not a division: at `CAP` the index is 0, below it the sum fits three bits. -/
theorem nextIdx_toNat (i : Index) : (nextIdx i).toNat = if i.toNat + 1 = 8 then 0 else i.toNat + 1 := by
  have hsum : (i.setWidth 4 + 1).toNat = i.toNat + 1 := by
    simp only [BitVec.ofNat_eq_ofNat, BitVec.toNat_add, BitVec.toNat_setWidth, BitVec.toNat_ofNat]
    omega
  have hcap : i.setWidth 4 + 1 = BitVec.ofNat 4 Config.cap ↔ i.toNat + 1 = 8 := by
    rw [← BitVec.toNat_inj, hsum]
    rfl
  simp only [nextIdx, hcap]
  split
  · rfl
  · rw [BitVec.toNat_setWidth, hsum]
    omega

@[simp] theorem ptrIdx_nextPtr (p : Ptr) : ptrIdx (nextPtr p) = nextIdx (ptrIdx p) :=
  BitVec.extractLsb'_append_eq_right

/-- The lap bit toggles exactly when the index wraps (R102). -/
@[simp] theorem ptrLap_nextPtr (p : Ptr) : ptrLap (nextPtr p) = ptrLap p ^^^ (if ptrIdx p = 7 then 1 else 0) :=
  BitVec.extractLsb'_append_eq_left

/-- Settles O14: the index by its number, the pointer field by field, and the four examples computed. -/
theorem indexAndPointerAdvance : Obligations.IndexAndPointerAdvance :=
  ⟨nextIdx_toNat, fun p => ⟨ptrIdx_nextPtr p, ptrLap_nextPtr p⟩, by decide, by decide, by decide, by decide⟩

end Sys2Proof.Machine
end

