-- ==== Sys2Proof/Proofs/GrayCounter.lean ====
section
/-!
PROOFS. The Gray code bit by bit (41_gray_counter_cdc.md R120, R121) and the synchronizers that carry it across
(R123).
-/

namespace Sys2Proof.Machine

/-! ### The synchronizers -/

/-- Every position of the window is sampled, under the draw that advances to it (30_encoding.md R89). -/
theorem exists_sampled_bin2gray {f src p : Ptr}
    (hp : ptrDist (gray2bin f) p ≤ ptrDist (gray2bin f) (gray2bin src)) : ∃ d, sampled d f src = some (bin2gray p) := by
  refine ⟨.plus (ptrDist (gray2bin f) p).toNat, ?_⟩
  have hadvance : gray2bin f + ptrDist (gray2bin f) p = p := add_sub_cancel (gray2bin f) p
  simp [sampled, inWindow, hadvance, gray2bin_bin2gray, hp, (ptrDist (gray2bin f) p).isLt]

/-- What a synchronizer samples is the Gray code of a position of the window. -/
theorem sampled_eq_bin2gray {d : Draw} {f src g : Ptr} (h : sampled d f src = some g) :
    ∃ p, ptrDist (gray2bin f) p ≤ ptrDist (gray2bin f) (gray2bin src) ∧ g = bin2gray p :=
  ⟨gray2bin g, of_decide_eq_true (sampled_inWindow h), (bin2gray_gray2bin g).symm⟩

/-- Both commands of the write port are write-agent steps, whatever the enable is (42_write_port.md). -/
theorem exec_eq_writeStep {i : Instr} (hi : isWriteCommand i = true) (s : State) : ∃ k, exec i s = writeStep s k := by
  cases i with
  | push id v len => exact ⟨_, rfl⟩
  | wrNop => exact ⟨_, rfl⟩
  | _ => cases hi

/-- Both commands of the read port are read-agent steps, whatever the enable is (43_read_port.md). -/
theorem exec_eq_readStep {i : Instr} (hi : isReadCommand i = true) (s : State) : ∃ k, exec i s = readStep s k := by
  cases i with
  | pop => exact ⟨_, rfl⟩
  | rdNop => exact ⟨_, rfl⟩
  | _ => cases hi

/-- Settles O18: a step that completes has sampled inside the window, and each position of the window has its draw. -/
theorem synchronizersAdvance : Obligations.SynchronizersAdvance := by
  refine ⟨fun i s t hi h => ?_, fun i s t hi h => ?_, fun i s p hi hr hp => ?_, fun i s p hi hr hp => ?_⟩
  · obtain ⟨k, hk⟩ := exec_eq_writeStep hi s
    obtain ⟨-, g, hg, rfl⟩ := writeStep_next.1 (hk ▸ h)
    obtain ⟨p, hp, rfl⟩ := sampled_eq_bin2gray hg
    exact ⟨p, hp, rfl⟩
  · obtain ⟨k, hk⟩ := exec_eq_readStep hi s
    obtain ⟨-, g, hg, rfl⟩ := readStep_next.1 (hk ▸ h)
    obtain ⟨p, hp, rfl⟩ := sampled_eq_bin2gray hg
    exact ⟨p, hp, rfl⟩
  · obtain ⟨d, hd⟩ := exists_sampled_bin2gray hp
    obtain ⟨k, hk⟩ := exec_eq_writeStep hi (s.withDraw d)
    exact ⟨d, _, hk.trans (writeStep_next.2 ⟨hr, _, hd, rfl⟩), rfl⟩
  · obtain ⟨d, hd⟩ := exists_sampled_bin2gray hp
    obtain ⟨k, hk⟩ := exec_eq_readStep hi (s.withDraw d)
    exact ⟨d, _, hk.trans (readStep_next.2 ⟨hr, _, hd, rfl⟩), rfl⟩

/-! ### The Gray code, bit by bit -/

theorem bin2gray_getLsbD (b : Ptr) (n : Nat) : (bin2gray b).getLsbD n = (b.getLsbD (n + 1) ^^ b.getLsbD n) := by
  simp [bin2gray, Bool.xor_comm, Nat.add_comm]

/-- Each bit of a pointer is the one above it, toggled by the bit of its Gray code (R121): R120 solved for the lower
bit. -/
theorem gray2bin_getLsbD (g : Ptr) (n : Nat) :
    (gray2bin g).getLsbD n = ((gray2bin g).getLsbD (n + 1) ^^ g.getLsbD n) := by
  have hg := bin2gray_getLsbD (gray2bin g) n
  rw [bin2gray_gray2bin] at hg
  simp [hg]

/-- Settles O16: the two bit equations at each position, with 0 above the top bit, the inverse, and the spec's examples
computed. -/
theorem grayCodeBits : Obligations.GrayCodeBits := by
  refine ⟨fun b => ⟨?_, bin2gray_getLsbD b 2, bin2gray_getLsbD b 1, bin2gray_getLsbD b 0⟩,
    fun g => ⟨?_, gray2bin_getLsbD g 2, gray2bin_getLsbD g 1, gray2bin_getLsbD g 0⟩, gray2bin_bin2gray, by decide⟩
  · rw [bin2gray_getLsbD, BitVec.getLsbD_of_ge b _ le_rfl, Bool.false_xor]
  · rw [gray2bin_getLsbD, BitVec.getLsbD_of_ge _ _ le_rfl, Bool.false_xor]

end Sys2Proof.Machine
end

