-- ==== Sys2Proof/Proofs/WritePort.lean ====
section
/-!
PROOFS. The write port (42_write_port.md): the accepted and the rejected push, WR_NOP, and how long a result is held.
-/

namespace Sys2Proof.Machine

/-! ### The two outcomes of a push, and the pop of a frame -/

/-- Overflow (42_write_port.md R141): a rejected push is a WR_NOP. -/
theorem exec_push_of_full {s : State} {g : Ptr} (hr : s.ready = true) (hf : wrFull s = true)
    (hg : sampled s.draw (firstStage s.wq) s.rgray = some g) (id : Nat) (v : Payload) (len : Len) :
    exec (.push id v len) s = .next ((s.setWrAck false).setWq (shiftIn s.params.syncStages g s.wq)) :=
  exec_push_next.2 ⟨hr, g, hg, by rw [if_pos hf]⟩

/-- An accepted push (42_write_port.md R140). -/
theorem exec_push_of_not_full {s : State} {g : Ptr} (hr : s.ready = true) (hf : wrFull s = false)
    (hg : sampled s.draw (firstStage s.wq) s.rgray = some g) (id : Nat) (v : Payload) (len : Len) :
    exec (.push id v len) s =
      .next ((((s.storeSlot (ptrIdx s.wbin) (Slot.mk id v)).setWptr (s.wbin + 1)).setWrAck true).setWq
        (shiftIn s.params.syncStages g s.wq)) :=
  exec_push_next.2 ⟨hr, g, hg, by rw [if_neg (by simp [hf]), nextPtr_eq_add_one]⟩

/-- A pop of a frame (43_read_port.md R160). -/
theorem exec_pop_of_not_empty {s : State} {g : Ptr} (hr : s.ready = true) (he : rdEmpty s = false)
    (hg : sampled s.draw (firstStage s.rq) s.wgray = some g) :
    exec .pop s =
      .next (((s.setResult (memRead s (liveSlot (ptrIdx s.rbin))) true).setRptr (s.rbin + 1)).setRq
        (shiftIn s.params.syncStages g s.rq)) :=
  exec_pop_next.2 ⟨hr, g, hg, by rw [if_neg (by simp [he]), nextPtr_eq_add_one]⟩

/-- Settles O20: the full test is `wrCount s = 8`; the frame of both outcomes is that of any write command. -/
theorem pushCompletes : Obligations.PushCompletes := by
  intro s g id v len hr hg
  by_cases hc : ptrDist (gray2bin (stage s.params.syncStages s.wq)) s.wbin = 8
  · have h := exec_push_of_full hr ((wrFull_iff s).2 hc) hg id v len
    obtain ⟨hread, -, hhost⟩ := exec_write_frame rfl h
    refine ⟨_, h, rfl, hread, hhost, ?_⟩
    rw [if_pos hc]
    exact ⟨rfl, rfl, rfl, fun _ => rfl⟩
  · have h := exec_push_of_not_full hr ((wrFull_false_iff s).2 hc) hg id v len
    obtain ⟨hread, -, hhost⟩ := exec_write_frame rfl h
    refine ⟨_, h, rfl, hread, hhost, ?_⟩
    rw [if_neg hc]
    exact ⟨rfl, rfl, rfl, memRead_storeSlot_same s _ _, fun _ => memRead_storeSlot_ne s _⟩

/-- Settles O23: WR_NOP's effect, and the frame of any write command. -/
theorem wrNopCompletes : Obligations.WrNopCompletes := by
  intro s g hr hg
  have h := exec_wrNop_next.2 ⟨hr, g, hg, rfl⟩
  obtain ⟨hread, -, hhost⟩ := exec_write_frame rfl h
  exact ⟨_, h, rfl, rfl, rfl, rfl, fun _ => rfl, hread, hhost⟩

/-- Settles O21: a push completes whatever its length is and does not read it; READ_RESULT reports the constant. -/
theorem lengthIsIgnored : Obligations.LengthIsIgnored := by
  refine ⟨fun s id v len hr ⟨g, hg⟩ => ?_, fun _ => rfl, fun s hr => ?_⟩
  · have h := exec_push_next (id := id) (v := v) (len := len) |>.2 ⟨hr, g, hg, rfl⟩
    exact ⟨_, h, (exec_push_len_irrelevant id v 8 len s).trans h⟩
  · exact ⟨s.setObserved (.rdLen 8), observe_next.2 ⟨hr, rfl, rfl⟩, rfl⟩

/-- Settles O22: the push stores the frame it is given, and the pop's `rd_valid` is the view's and not the frame's. -/
theorem sentinelLikeFrameIsAFrame : Obligations.SentinelLikeFrameIsAFrame := by
  refine ⟨fun s len g hr hf hg => ?_, fun s g hr he hm hg => ?_⟩
  · exact ⟨_, exec_push_of_not_full hr hf hg 0 0 len, rfl, memRead_storeSlot_same s _ _, rfl⟩
  · refine ⟨_, exec_pop_of_not_empty hr he hg, ?_⟩
    simp [hm]

/-! ### How long a result is held -/

/-- A read command other than POP is RD_NOP, which holds the result (43_read_port.md R165). -/
theorem exec_read_holds_result {i : Instr} {s t : State} (hi : isReadCommand i = true) (hp : i ≠ .pop)
    (h : exec i s = .next t) : t.rdFid = s.rdFid ∧ t.rdFpay = s.rdFpay ∧ t.rdValid = s.rdValid := by
  cases i with
  | pop => exact absurd rfl hp
  | rdNop =>
    obtain ⟨-, g, -, rfl⟩ := exec_rdNop_next.1 h
    exact ⟨rfl, rfl, rfl⟩
  | _ => cases hi

/-- `wr_ack` rises at an accepted push alone (42_write_port.md R140, R141, R145). -/
theorem exec_write_wrAck_iff {i : Instr} {s t : State} (hi : isWriteCommand i = true) (h : exec i s = .next t) :
    t.wrAck = true ↔ ∃ id v len, i = .push id v len ∧ wrFull s = false := by
  cases i with
  | push id v len =>
    obtain ⟨-, g, -, rfl⟩ := exec_push_next.1 h
    cases hf : wrFull s <;> simp
  | wrNop =>
    obtain ⟨-, g, -, rfl⟩ := exec_wrNop_next.1 h
    simp
  | _ => cases hi

/-- Settles O26: outside RESET each result is in the frame of every command but its own agent's; there `wr_ack` is the
write step's, and RD_NOP holds the pop's. -/
theorem resultsAreHeld : Obligations.ResultsAreHeld := by
  refine ⟨fun i s t h hw hne => ?_, fun i s t h hp hne => ?_, fun _ _ _ h hi => exec_write_wrAck_iff hi h⟩
  · obtain hi | hi | hi | ⟨o, d, hi⟩ := command_cases i
    · exact absurd hi hne
    · cases hw.symm.trans hi
    · obtain ⟨⟨-, -, -, hack⟩, -⟩ := exec_read_frame hi h
      exact hack
    · obtain ⟨-, ⟨-, -, -, hack⟩, -⟩ := exec_observation_frame hi h
      exact hack
  · obtain hi | hi | hi | ⟨o, d, hi⟩ := command_cases i
    · exact absurd hi hne
    · obtain ⟨⟨-, -, -, hres⟩, -⟩ := exec_write_frame hi h
      exact hres
    · exact exec_read_holds_result hi hp h
    · obtain ⟨-, -, ⟨-, -, -, hres⟩, -⟩ := exec_observation_frame hi h
      exact hres

end Sys2Proof.Machine
end

