-- ==== Sys2Proof/Proofs/ReadPort.lean ====
section
/-!
PROOFS. The read port (43_read_port.md): the pop of a frame and of the sentinel, and RD_NOP.
-/

namespace Sys2Proof.Machine

/-- Underflow-as-sentinel (43_read_port.md R161): a pop of an empty view loads the sentinel and holds the pointer. -/
theorem exec_pop_of_empty {s : State} {g : Ptr} (hr : s.ready = true) (he : rdEmpty s = true)
    (hg : sampled s.draw (firstStage s.rq) s.wgray = some g) :
    exec .pop s = .next ((s.setResult sentinel false).setRq (shiftIn s.params.syncStages g s.rq)) :=
  exec_pop_next.2 ⟨hr, g, hg, by rw [if_pos he, memRead_sentinelSlot]⟩

/-- Settles O24: the empty test is `rdCount s = 0`; the frame of both outcomes is that of any read command. -/
theorem popCompletes : Obligations.PopCompletes := by
  intro s g hr hg
  by_cases hc : ptrDist s.rbin (gray2bin (stage s.params.syncStages s.rq)) = 0
  · have h := exec_pop_of_empty hr ((rdEmpty_iff s).2 hc) hg
    obtain ⟨hwrite, hmem, hhost⟩ := exec_read_frame rfl h
    refine ⟨_, h, rfl, hwrite, hmem, hhost, rfl, ?_⟩
    rw [if_pos hc]
    exact ⟨rfl, rfl, rfl, rfl, rfl⟩
  · have h := exec_pop_of_not_empty hr ((rdEmpty_false_iff s).2 hc) hg
    obtain ⟨hwrite, hmem, hhost⟩ := exec_read_frame rfl h
    refine ⟨_, h, rfl, hwrite, hmem, hhost, rfl, ?_⟩
    rw [if_neg hc]
    exact ⟨rfl, rfl, rfl, rfl, rfl⟩

/-- Settles O25: RD_NOP's effect, the result held, and the frame of any read command. -/
theorem rdNopCompletes : Obligations.RdNopCompletes := by
  intro s g hr hg
  have h := exec_rdNop_next.2 ⟨hr, g, hg, rfl⟩
  obtain ⟨hwrite, hmem, hhost⟩ := exec_read_frame rfl h
  exact ⟨_, h, rfl, rfl, rfl, rfl, rfl, rfl, hwrite, hmem, hhost⟩

end Sys2Proof.Machine
end

