-- ==== Sys2Proof/Proofs/Status.lean ====
section
/-!
PROOFS. The status observations (44_status.md): what each one returns and refuses, and how the two views bound the
occupancy (41_gray_counter_cdc.md R125 to R128).
-/

namespace Sys2Proof.Machine

/-! ### Every observation completes from its output's own domain -/

/-- An observation made from its output's own domain completes with the output's value. -/
theorem exec_observation_completes {i : Instr} {o : Output} {s : State} (hi : observation i = some (o, outputDomain o))
    (hr : s.ready = true) : ∃ t, exec i s = .next t ∧ OnlyObserved s t (outputValue s o) := by
  have h : exec i s = .next (s.setObserved (outputValue s o)) :=
    (exec_observation hi s).trans (observe_next.2 ⟨hr, rfl, rfl⟩)
  exact ⟨_, h, exec_observation_frame hi h⟩

theorem observe_of_other_domain {o : Output} {d : Domain} {s : State} (hr : s.ready = true) (hd : outputDomain o ≠ d) :
    observe o d s = .refused .crossDomainRead := by
  rw [observe, whenLive_of_ready hr, if_neg hd]

/-- Settles O33: every observation is `observe` of its output, which compares the two domains. -/
theorem crossDomainReadsAreRefused : Obligations.CrossDomainReadsAreRefused := by
  refine fun i o observer s hi hr => ⟨fun hd => ?_, ?_⟩
  · rw [exec_observation hi, observe_of_other_domain hr hd]
  · rintro rfl
    exact exec_observation_completes hi hr

/-- Settles O31: bits 2 to 0 of a pointer are its number cut to three bits. -/
theorem cursorsComplete : Obligations.CursorsComplete := fun _ hr =>
  ⟨exec_observation_completes (o := .rdCursor) rfl hr, exec_observation_completes (o := .wrCursor) rfl hr⟩

/-- Settles O32: the five outputs observed from their own domain, and the fields of `resetBlock`. -/
theorem readResultCompletes : Obligations.ReadResultCompletes := by
  refine ⟨fun s hr => ⟨exec_observation_completes (o := .wrAck) rfl hr, exec_observation_completes (o := .rdId) rfl hr,
    exec_observation_completes (o := .rdLen) rfl hr, exec_observation_completes (o := .rdPayload) rfl hr,
    exec_observation_completes (o := .rdValid) rfl hr⟩, fun s t h => ?_⟩
  obtain ⟨-, rfl⟩ := exec_reset_next.1 h
  exact ⟨rfl, rfl, rfl⟩

/-! ### How far a view lags behind -/

/-- Distances add up around the ring of pointers (40_circular_index.md R105). -/
theorem ptrDist_add (a b c : Ptr) : ptrDist a b + ptrDist b c = ptrDist a c :=
  sub_add_sub_cancel' b a c

/-- The stages' distances sum, up to wrapping, to the distance from the last stage to the source
(41_gray_counter_cdc.md R125). -/
theorem ofNat_chainDist (src : Ptr) {q : List Ptr} (hq : q ≠ []) :
    BitVec.ofNat 4 (chainDist src q) = ptrDist (gray2bin (stage q.length q)) src := by
  induction q generalizing src with
  | nil => exact absurd rfl hq
  | cons g q ih =>
    rw [chainDist, BitVec.ofNat_add, BitVec.ofNat_toNat, BitVec.setWidth_eq]
    cases q with
    | nil => exact BitVec.add_zero _
    | cons g' q =>
      rw [ih (gray2bin g) (List.cons_ne_nil g' q), add_comm, ptrDist_add]
      rfl

/-- A chain whose distances sum to less than a full turn has not wrapped. -/
theorem ptrDist_stage_toNat {src : Ptr} {q : List Ptr} (hq : q ≠ []) (h : chainDist src q < 16) :
    (ptrDist (gray2bin (stage q.length q)) src).toNat = chainDist src q := by
  rw [← ofNat_chainDist src hq, BitVec.toNat_ofNat, Nat.mod_eq_of_lt h]

/-- A settled chain lags behind by nothing. -/
theorem chainDist_of_settled {src : Ptr} {q : List Ptr} (h : ∀ g ∈ q, g = bin2gray src) : chainDist src q = 0 := by
  induction q with
  | nil => rfl
  | cons g q ih =>
    obtain ⟨rfl, hq⟩ := List.forall_mem_cons.1 h
    simp [chainDist, gray2bin_bin2gray, ptrDist_self, ih hq]

/-! ### The views bound the occupancy -/

section
variable {s : State} (h : BlockInv s)
include h

theorem BlockInv.syncStages_pos : 0 < s.params.syncStages := by
  have hv := h.valid
  simp only [State.validParams, Params.inRange, Bool.and_eq_true, decide_eq_true_eq] at hv
  omega

/-- What the write domain sees of the read pointer lags behind it by the chain. -/
theorem BlockInv.wrView_toNat :
    (ptrDist (gray2bin (stage s.params.syncStages s.wq)) s.rbin).toNat = chainDist s.rbin s.wq := by
  have hchain := h.wChain
  rw [← h.wqLen]
  exact ptrDist_stage_toNat (List.ne_nil_of_length_pos (h.wqLen ▸ h.syncStages_pos)) (by omega)

/-- What the read domain sees of the write pointer lags behind it by the chain. -/
theorem BlockInv.rdView_toNat :
    (ptrDist (gray2bin (stage s.params.syncStages s.rq)) s.wbin).toNat = chainDist s.wbin s.rq := by
  have hchain := h.rChain
  rw [← h.rqLen]
  exact ptrDist_stage_toNat (List.ne_nil_of_length_pos (h.rqLen ▸ h.syncStages_pos)) (by omega)

/-- The write view counts, beyond the occupancy, the pops it has not seen. -/
theorem BlockInv.wrCount_toNat : (wrCount s).toNat = chainDist s.rbin s.wq + (occ s).toNat := by
  have hchain := h.wChain
  have hsum : wrCount s = ptrDist (gray2bin (stage s.params.syncStages s.wq)) s.rbin + occ s :=
    (ptrDist_add _ s.rbin _).symm
  rw [hsum, BitVec.toNat_add, h.wrView_toNat]
  omega

/-- The read view counts the occupancy but for the pushes it has not seen. -/
theorem BlockInv.occ_toNat : (occ s).toNat = (rdCount s).toNat + chainDist s.wbin s.rq := by
  have hchain := h.rChain
  have hsum : occ s = rdCount s + ptrDist (gray2bin (stage s.params.syncStages s.rq)) s.wbin :=
    (ptrDist_add s.rbin _ _).symm
  have hnat := congrArg BitVec.toNat hsum
  rw [BitVec.toNat_add, h.rdView_toNat] at hnat
  omega

theorem BlockInv.counts_of_quiescent (hq : Quiescent s) : wrCount s = occ s ∧ rdCount s = occ s := by
  obtain ⟨hw, hr⟩ := hq
  have hwc := chainDist_of_settled fun g hg => (hw g hg).trans h.rgray
  have hrc := chainDist_of_settled fun g hg => (hr g hg).trans h.wgray
  constructor <;> apply BitVec.eq_of_toNat_eq
  · rw [h.wrCount_toNat, hwc, zero_add]
  · rw [h.occ_toNat, hrc, add_zero]

/-- `rd_count <= occ <= wr_count <= 8` (41_gray_counter_cdc.md R130). -/
theorem BlockInv.counts_bound :
    (rdCount s).toNat ≤ (occ s).toNat ∧ (occ s).toNat ≤ (wrCount s).toNat ∧ (wrCount s).toNat ≤ 8 := by
  have hchain := h.wChain
  have hwr := h.wrCount_toNat
  have hrd := h.occ_toNat
  omega

end

/-- Settles O28: the observation of the named count, and the bounds that the two lags give. -/
theorem sizeCompletes : Obligations.SizeCompletes := by
  refine ⟨fun s port hr => ?_, fun s hi hl => ?_⟩
  · cases port with
    | write => exact exec_observation_completes (o := .wrCount) rfl hr
    | read => exact exec_observation_completes (o := .rdCount) rfl hr
  · obtain ⟨hrd, hwr, hcap⟩ := (hi.block hl).counts_bound
    exact ⟨hrd, hwr, hcap, (hi.block hl).counts_of_quiescent⟩

/-! ### Blocks whose views lag -/

/-- One frame pushed after a reset, and no read edge since: the read view is still 0. -/
def pushedUnseen : State := (State.reset.storeSlot 0 (Slot.mk 1 0)).setWptr 1

/-- Eight frames pushed after a reset and all of them popped, with no write edge since: the write view is still 8. -/
def poppedUnseen : State :=
  { ((State.reset.setWptr 8).setRptr 8).setRq [bin2gray 8, bin2gray 8] with
    mem := (List.range 8).map fun i => (i, Slot.mk 1 0) }

theorem inv_pushedUnseen : Inv pushedUnseen where
  mem := by decide
  ids := by decide
  block _ := by constructor <;> decide

theorem inv_poppedUnseen : Inv poppedUnseen where
  mem := by decide
  ids := by decide
  block _ := by constructor <;> decide

/-! ### The flags -/

/-- A pop of a view that is not empty returns a frame (41_gray_counter_cdc.md R131). -/
theorem exec_pop_rdValid {s t : State} (he : rdEmpty s = false) (h : exec .pop s = .next t) : t.rdValid = true := by
  obtain ⟨-, g, -, rfl⟩ := exec_pop_next.1 h
  simp [he]

/-- Settles O29: the observation of the named flag, the bounds of the counts at 0, and the two lagging blocks. -/
theorem isEmptyCompletes : Obligations.IsEmptyCompletes := by
  refine ⟨fun s port hr => ?_, fun _ _ => exec_pop_rdValid, fun s hi hl he => ?_,
    ⟨pushedUnseen, inv_pushedUnseen, by decide⟩, ⟨poppedUnseen, inv_poppedUnseen, by decide⟩, by decide⟩
  · cases port with
    | write => exact exec_observation_completes (o := .wrEmpty) rfl hr
    | read => exact exec_observation_completes (o := .rdEmpty) rfl hr
  · obtain ⟨-, hle, -⟩ := (hi.block hl).counts_bound
    rw [(wrEmpty_iff s).1 he] at hle
    exact BitVec.eq_of_toNat_eq (Nat.le_zero.1 hle)

/-- Settles O30: the observation of the named flag, the bounds of the counts at 8, and a write view that lags. -/
theorem isFullCompletes : Obligations.IsFullCompletes := by
  refine ⟨fun s port hr => ?_, fun s t id v len hf h => (exec_write_wrAck_iff rfl h).2 ⟨id, v, len, rfl, hf⟩,
    ⟨poppedUnseen, inv_poppedUnseen, by decide⟩, fun s hi hl hf => ?_⟩
  · cases port with
    | write => exact exec_observation_completes (o := .wrFull) rfl hr
    | read => exact exec_observation_completes (o := .rdFull) rfl hr
  · obtain ⟨hge, hle, hcap⟩ := (hi.block hl).counts_bound
    rw [(rdFull_iff s).1 hf] at hge
    exact BitVec.eq_of_toNat_eq (Nat.le_antisymm (hle.trans hcap) hge)

end Sys2Proof.Machine
end

