-- ==== Sys2Proof/Proofs/Exceptions.lean ====
section
/-!
PROOFS. The two error conditions (60_exceptions.md R201, R202): which command raises each one in which state, and that
the result register is the only trace it leaves.
-/

namespace Sys2Proof.Machine

/-! ### The causes -/

theorem raised_overflow_iff {i : Instr} {s : State} :
    raised i s = some .overflow ↔ (∃ id v len, i = .push id v len) ∧ wrFull s = true := by
  cases i <;> simp [raised]

theorem raised_underflow_iff {i : Instr} {s : State} :
    raised i s = some .underflow ↔ i = .pop ∧ rdEmpty s = true := by
  cases i <;> simp [raised]

/-! ### The signals and the next states -/

/-- A push on a full view changes `wr_ack` and the synchronizer alone (60_exceptions.md R201). -/
theorem exec_push_eq_of_full {s t : State} {id : Nat} {v : Payload} {len : Len} (hf : wrFull s = true)
    (h : exec (.push id v len) s = .next t) : t = { s with wrAck := false, wq := t.wq } := by
  obtain ⟨-, g, -, rfl⟩ := exec_push_next.1 h
  rw [if_pos hf]
  rfl

/-- A pop on an empty view changes the result, to the sentinel, and the synchronizer alone (60_exceptions.md R202). -/
theorem exec_pop_eq_of_empty {s t : State} (he : rdEmpty s = true) (h : exec .pop s = .next t) :
    t = { s with rdFid := 0, rdFpay := 0, rdValid := false, rq := t.rq } := by
  obtain ⟨-, g, -, rfl⟩ := exec_pop_next.1 h
  rw [if_pos he, memRead_sentinelSlot]
  rfl

theorem exec_push_wrAck_false_iff {s t : State} {id : Nat} {v : Payload} {len : Len}
    (h : exec (.push id v len) s = .next t) : t.wrAck = false ↔ wrFull s = true := by
  refine ⟨fun ha => ?_, fun hf => congrArg State.wrAck (exec_push_eq_of_full hf h)⟩
  by_contra hf
  have hack : t.wrAck = true := (exec_write_wrAck_iff rfl h).2 ⟨id, v, len, rfl, Bool.eq_false_of_not_eq_true hf⟩
  cases ha.symm.trans hack

theorem exec_pop_rdValid_false_iff {s t : State} (h : exec .pop s = .next t) : t.rdValid = false ↔ rdEmpty s = true := by
  refine ⟨fun hv => ?_, fun he => congrArg State.rdValid (exec_pop_eq_of_empty he h)⟩
  by_contra he
  cases hv.symm.trans (exec_pop_rdValid (Bool.eq_false_of_not_eq_true he) h)

/-- Settles O27: each condition's cause is its command on a full or an empty view, and there the next state differs in
the agent's result and synchronizer alone. -/
theorem conditionsAreSilent : Obligations.ConditionsAreSilent := by
  refine ⟨fun i s t h ho => ?_, fun i s t h hu => ?_, fun id v len s t h => ?_, fun s t h => ?_⟩
  · obtain ⟨⟨id, v, len, rfl⟩, hf⟩ := raised_overflow_iff.1 ho
    exact ⟨⟨id, v, len, rfl⟩, hf, exec_push_eq_of_full hf h⟩
  · obtain ⟨rfl, he⟩ := raised_underflow_iff.1 hu
    exact ⟨rfl, he, exec_pop_eq_of_empty he h⟩
  · rw [raised_overflow_iff, exec_push_wrAck_false_iff h]
    exact and_iff_right ⟨id, v, len, rfl⟩
  · rw [raised_underflow_iff, exec_pop_rdValid_false_iff h]
    exact and_iff_right rfl

end Sys2Proof.Machine
end

