-- ==== Sys2Proof/Proofs/ResetOverride.lean ====
section
/-!
PROOFS. `rst = 1` beside a port's word, and alone (70_reset_and_hazards.md R220, R222).
-/

namespace Sys2Proof.Machine

/-- `rst = 1` overrides the port's word (30_encoding.md R83). -/
theorem decodeReset_known_one (port : Decoded) : decodeReset (.known 1) port = .instr .reset :=
  decodeReset_known 1 port

/-- A sample whose `rst` is 1 decodes to RESET, whichever clock has the edge, or none (30_encoding.md R83, R85). -/
theorem decode_of_rst (p : Params) {w : Nat} {smp : Sample}
    (h : smp = .write (.known 1) (.known w) ∨ smp = .read (.known 1) (.known w) ∨ smp = .reset (.known 1)) :
    decode p smp = .instr .reset := by
  obtain rfl | rfl | rfl := h
  · exact decodeReset_known_one (decodeWrite p (.known w))
  · exact decodeReset_known_one (decodeRead (.known w))
  · exact decodeReset_known_one .nothing

theorem fetch_of_decode {s : State} {smp : Sample} {d : Draw} {rest : List HostEvent} {i : Instr}
    (hp : s.pending = .sample smp d :: rest) (hd : decode s.params smp = .instr i) :
    fetch s = .run i (s.taken rest d) := by
  simp only [fetch, hp, hd]

/-- A step that decodes to RESET completes, with the reset of the state that has taken the event. -/
theorem step_of_decode_reset {s : State} {smp : Sample} {d : Draw} {rest : List HostEvent} (hv : s.validParams = true)
    (hp : s.pending = .sample smp d :: rest) (hd : decode s.params smp = .instr .reset) :
    step s = .next (s.taken rest d).resetBlock :=
  step_next.2 (.inl ⟨_, _, fetch_of_decode hp hd, exec_reset_next.2 ⟨hv, rfl⟩⟩)

/-- Settles O9: under `rst = 1` the step is RESET's, which leaves every register at its reset value. -/
theorem resetOverridesPorts : Obligations.ResetOverridesPorts := by
  intro s w d rest smp hv hrst hp
  refine ⟨_, step_of_decode_reset hv hp (decode_of_rst s.params hrst), ?_⟩
  simp [Memory.lookup]

end Sys2Proof.Machine
end

