-- ==== Sys2Proof/Proofs/Effects.lean ====
section
/-!
PROOFS. What a write command and a read command do beside the advance of their synchronizer (42_write_port.md,
43_read_port.md), each said once as a state, so that what a later proof needs of a command is a fact about that state.
-/

namespace Sys2Proof.Machine

/-! ### The two effects that move a pointer -/

/-- The effect of an accepted push of `f` (42_write_port.md R140). -/
def State.accept (s : State) (f : Slot) : State :=
  ((s.storeSlot (ptrIdx s.wbin) f).setWptr (nextPtr s.wbin)).setWrAck true

/-- The effect of a pop of the oldest live frame (43_read_port.md R160). -/
def State.popFront (s : State) : State :=
  (s.setResult (memRead s (liveSlot (ptrIdx s.rbin))) true).setRptr (nextPtr s.rbin)

/-- The effect of a write command. -/
def writeEffect (i : Instr) (s : State) : State :=
  match i with
  | .push id v _ => if wrFull s then s.setWrAck false else s.accept (Slot.mk id v)
  | _ => s.setWrAck false

/-- The effect of a read command. -/
def readEffect (i : Instr) (s : State) : State :=
  match i with
  | .pop => if rdEmpty s then s.setResult sentinel false else s.popFront
  | _ => s

section
variable {i : Instr} {s t : State}

theorem exec_eq_writeStep_effect (hi : isWriteCommand i = true) : exec i s = writeStep s (writeEffect i s) := by
  cases i with
  | push id v len => rfl
  | wrNop => rfl
  | _ => cases hi

theorem exec_eq_readStep_effect (hi : isReadCommand i = true) : exec i s = readStep s (readEffect i s) := by
  cases i with
  | pop =>
    rw [readEffect, ← memRead_sentinelSlot s]
    rfl
  | rdNop => rfl
  | _ => cases hi

theorem exec_write_next (hi : isWriteCommand i = true) :
    exec i s = .next t ↔ s.ready = true ∧ ∃ g, sampled s.draw (firstStage s.wq) s.rgray = some g ∧
      t = (writeEffect i s).setWq (shiftIn s.params.syncStages g s.wq) := by
  rw [exec_eq_writeStep_effect hi, writeStep_next]

theorem exec_read_next (hi : isReadCommand i = true) :
    exec i s = .next t ↔ s.ready = true ∧ ∃ g, sampled s.draw (firstStage s.rq) s.wgray = some g ∧
      t = (readEffect i s).setRq (shiftIn s.params.syncStages g s.rq) := by
  rw [exec_eq_readStep_effect hi, readStep_next]

/-- A write command accepts a push, or only clears `wr_ack`. -/
theorem writeEffect_cases (i : Instr) (s : State) :
    writeEffect i s = s.setWrAck false ∨
      ∃ id v len, i = .push id v len ∧ wrFull s = false ∧ writeEffect i s = s.accept (Slot.mk id v) := by
  cases i with
  | push id v len =>
    cases hf : wrFull s with
    | true => exact .inl (if_pos hf)
    | false => exact .inr ⟨id, v, len, rfl, rfl, if_neg (Bool.eq_false_iff.1 hf)⟩
  | _ => exact .inl rfl

/-- A read command leaves its domain alone, or is a pop that loads the sentinel, or one that takes a frame. -/
theorem readEffect_cases (i : Instr) (s : State) :
    i ≠ .pop ∧ readEffect i s = s ∨
      i = .pop ∧ rdEmpty s = true ∧ readEffect i s = s.setResult sentinel false ∨
      i = .pop ∧ rdEmpty s = false ∧ readEffect i s = s.popFront := by
  cases i with
  | pop =>
    cases he : rdEmpty s with
    | true => exact .inr (.inl ⟨rfl, rfl, if_pos he⟩)
    | false => exact .inr (.inr ⟨rfl, rfl, if_neg (Bool.eq_false_iff.1 he)⟩)
  | _ => exact .inl ⟨nofun, rfl⟩

end

/-! ### What a command can answer, whatever it is -/

theorem ready_iff (s : State) : s.ready = true ↔ s.validParams = true ∧ s.live = true := Bool.and_eq_true_iff

theorem live_of_ready {s : State} (h : s.ready = true) : s.live = true := ((ready_iff s).1 h).2

/-- The parameters stay (00_scope.md R7), and a block that has been reset stays so (10_state.md R39). -/
theorem exec_params_live {i : Instr} {s t : State} (h : exec i s = .next t) :
    t.params = s.params ∧ t.live = true := by
  obtain rfl | hi | hi | ⟨o, d, hi⟩ := command_cases i
  · obtain ⟨-, rfl⟩ := exec_reset_next.1 h
    exact ⟨rfl, rfl⟩
  · obtain ⟨-, -, ⟨hp, hl, -⟩, -⟩ := exec_write_frame hi h
    obtain ⟨hr, -⟩ := (exec_write_next hi).1 h
    exact ⟨hp, hl.trans (live_of_ready hr)⟩
  · obtain ⟨-, -, ⟨hp, hl, -⟩, -⟩ := exec_read_frame hi h
    obtain ⟨hr, -⟩ := (exec_read_next hi).1 h
    exact ⟨hp, hl.trans (live_of_ready hr)⟩
  · rw [exec_observation hi] at h
    obtain ⟨hr, -, rfl⟩ := observe_next.1 h
    exact ⟨rfl, live_of_ready hr⟩

theorem exec_params {i : Instr} {s t : State} (h : exec i s = .next t) : t.params = s.params := (exec_params_live h).1

theorem exec_live {i : Instr} {s t : State} (h : exec i s = .next t) : t.live = true := (exec_params_live h).2

end Sys2Proof.Machine
end

