-- ==== Sys2Proof/Proofs/Invariant.lean ====
section
/-!
PROOFS. The invariant (10_state.md R43, R44, R47; 41_gray_counter_cdc.md R125): it holds after reset, and each of the
few updates a step is made of keeps it.
-/

namespace Sys2Proof.Machine

/-! ### Distances as numbers -/

/-- Inside a window distances add up without wrapping (41_gray_counter_cdc.md R123). -/
theorem ptrDist_toNat_add_of_le {a b c : Ptr} (h : ptrDist a b ≤ ptrDist a c) :
    (ptrDist a b).toNat + (ptrDist b c).toNat = (ptrDist a c).toNat := by
  have hle := BitVec.le_def.1 h
  have hbc : ptrDist b c = ptrDist a c - ptrDist a b := eq_sub_of_add_eq' (ptrDist_add a b c)
  rw [hbc, BitVec.toNat_sub_of_le h]
  omega

theorem ptrDist_add_one_right {a b : Ptr} (h : (ptrDist a b).toNat < 15) :
    (ptrDist a (b + 1)).toNat = (ptrDist a b).toNat + 1 := by
  have hsum : ptrDist a (b + 1) = ptrDist a b + 1 := add_sub_right_comm b 1 a
  rw [hsum, BitVec.toNat_add]
  exact Nat.mod_eq_of_lt (by simpa using Nat.add_lt_add_right h 1)

theorem ptrDist_add_one_left {a b : Ptr} (h : 0 < (ptrDist a b).toNat) :
    (ptrDist (a + 1) b).toNat + 1 = (ptrDist a b).toNat := by
  have hsum : ptrDist (a + 1) b = ptrDist a b - 1 := sub_add_eq_sub_sub b a 1
  have hone : (1 : Ptr).toNat ≤ (ptrDist a b).toNat := h
  rw [hsum, BitVec.toNat_sub_of_le (BitVec.le_def.2 hone)]
  exact Nat.sub_add_cancel h

/-! ### Chains -/

theorem chainDist_take_le (src : Ptr) (q : List Ptr) (n : Nat) : chainDist src (q.take n) ≤ chainDist src q := by
  induction q generalizing src n with
  | nil => simp
  | cons g q ih =>
    cases n with
    | zero => exact Nat.zero_le _
    | succ n => exact Nat.add_le_add_left (ih (gray2bin g) n) _

/-- An advance brings a chain no farther from its source: the sample lies between the first stage and the source. -/
theorem chainDist_shiftIn_le {d : Draw} {src g : Ptr} {q : List Ptr} (n : Nat) (hq : q ≠ [])
    (h : sampled d (firstStage q) (bin2gray src) = some g) : chainDist src (shiftIn n g q) ≤ chainDist src q := by
  obtain ⟨p, hp, rfl⟩ := sampled_eq_bin2gray h
  cases q with
  | nil => exact absurd rfl hq
  | cons f q =>
    have hwin : (ptrDist (gray2bin f) p).toNat + (ptrDist p src).toNat = (ptrDist (gray2bin f) src).toNat :=
      ptrDist_toNat_add_of_le (gray2bin_bin2gray src ▸ hp)
    have htake := chainDist_take_le p (f :: q) (n - 1)
    simp only [shiftIn, chainDist, gray2bin_bin2gray] at htake ⊢
    omega

/-- When the source moves on by one, a chain falls behind by at most one. -/
theorem chainDist_add_one_le (src : Ptr) (q : List Ptr) : chainDist (src + 1) q ≤ chainDist src q + 1 := by
  cases q with
  | nil => exact Nat.zero_le _
  | cons g q =>
    have hmove : (ptrDist (gray2bin g) (src + 1)).toNat ≤ (ptrDist (gray2bin g) src).toNat + 1 := by
      rw [show ptrDist (gray2bin g) (src + 1) = ptrDist (gray2bin g) src + 1 from add_sub_right_comm _ _ _,
        BitVec.toNat_add]
      exact Nat.mod_le _ _
    simp only [chainDist]
    omega

/-! ### Slots -/

theorem Memory.mem_of_lookup {m : Memory} {i : Nat} {v : Slot} (h : Memory.lookup m i = some v) : (i, v) ∈ m := by
  induction m with
  | nil => cases h
  | cons c m ih =>
    obtain ⟨a, w⟩ := c
    simp only [Memory.lookup] at h
    split at h
    · rename_i ha
      cases h
      exact ha ▸ List.mem_cons_self
    · exact List.mem_cons_of_mem _ (ih h)

/-- A write takes no slot's value away. -/
theorem Memory.lookup_store_isSome {m : Memory} {i j : Nat} (v : Slot) (h : (Memory.lookup m j).isSome = true) :
    (Memory.lookup (Memory.store m i v) j).isSome = true := by
  by_cases hj : j = i
  · rw [hj, Memory.lookup_store_same]
    rfl
  · rwa [Memory.lookup_store_ne m v hj]

/-! ### What keeps the block's part of the invariant -/

/-- The position after the last live frame is the write pointer's. -/
theorem rbin_add_occ (s : State) : s.rbin + BitVec.ofNat 4 (occ s).toNat = s.wbin := by
  rw [BitVec.ofNat_toNat, BitVec.setWidth_eq]
  exact add_sub_cancel s.rbin s.wbin

section
variable {s : State} (h : BlockInv s)
include h

theorem BlockInv.wq_ne_nil : s.wq ≠ [] := List.ne_nil_of_length_pos (h.wqLen ▸ h.syncStages_pos)

theorem BlockInv.rq_ne_nil : s.rq ≠ [] := List.ne_nil_of_length_pos (h.rqLen ▸ h.syncStages_pos)

/-- A push is accepted only where the write domain's lag leaves a slot free (41_gray_counter_cdc.md R130). -/
theorem BlockInv.room_of_not_full (hf : wrFull s = false) : chainDist s.rbin s.wq + (occ s).toNat < 8 := by
  have hne : (wrCount s).toNat ≠ 8 := fun he => (wrFull_false_iff s).1 hf (BitVec.eq_of_toNat_eq he)
  have hchain := h.wChain
  rw [h.wrCount_toNat] at hne
  omega

/-- A pop takes a frame only where the read domain's lag leaves one (41_gray_counter_cdc.md R130). -/
theorem BlockInv.frame_of_not_empty (he : rdEmpty s = false) : chainDist s.wbin s.rq < (occ s).toNat := by
  have hne : (rdCount s).toNat ≠ 0 := fun h0 => (rdEmpty_false_iff s).1 he (BitVec.eq_of_toNat_eq h0)
  have hocc := h.occ_toNat
  omega

/-- The slot a successful pop reads holds a pushed value (10_state.md R47). -/
theorem BlockInv.exists_front (he : rdEmpty s = false) :
    ∃ f, Memory.lookup s.mem (ptrIdx s.rbin).toNat = some f ∧ memRead s (liveSlot (ptrIdx s.rbin)) = f := by
  have hlisted := h.listed 0 (Nat.zero_lt_of_lt (h.frame_of_not_empty he))
  rw [BitVec.add_zero, Option.isSome_iff_exists] at hlisted
  obtain ⟨f, hf⟩ := hlisted
  exact ⟨f, hf, by rw [memRead_liveSlot, hf, Option.getD_some]⟩

theorem BlockInv.setWrAck (b : Bool) : BlockInv (s.setWrAck b) := { h with }

theorem BlockInv.setResult {f : Slot} (b : Bool) (hf : f.id < 2 ^ s.params.idW) : BlockInv (s.setResult f b) :=
  { h with fid := hf }

theorem BlockInv.shiftWq {d : Draw} {g : Ptr} (hg : sampled d (firstStage s.wq) s.rgray = some g) :
    BlockInv (s.setWq (shiftIn s.params.syncStages g s.wq)) :=
  { h with
    wqLen := shiftIn_length g h.syncStages_pos h.wqLen
    wChain := Nat.le_trans
      (Nat.add_le_add_right (chainDist_shiftIn_le _ h.wq_ne_nil (h.rgray ▸ hg)) _) h.wChain }

theorem BlockInv.shiftRq {d : Draw} {g : Ptr} (hg : sampled d (firstStage s.rq) s.wgray = some g) :
    BlockInv (s.setRq (shiftIn s.params.syncStages g s.rq)) :=
  { h with
    rqLen := shiftIn_length g h.syncStages_pos h.rqLen
    rChain := Nat.le_trans (chainDist_shiftIn_le _ h.rq_ne_nil (h.wgray ▸ hg)) h.rChain }

theorem BlockInv.occ_accept (hf : wrFull s = false) (f : Slot) : (occ (s.accept f)).toNat = (occ s).toNat + 1 := by
  have hroom := h.room_of_not_full hf
  have hstep : occ (s.accept f) = ptrDist s.rbin (s.wbin + 1) := congrArg (ptrDist s.rbin) (nextPtr_eq_add_one s.wbin)
  rw [hstep]
  exact ptrDist_add_one_right (show (occ s).toNat < 15 by omega)

theorem BlockInv.occ_popFront (he : rdEmpty s = false) : (occ s.popFront).toNat + 1 = (occ s).toNat := by
  have hframe := h.frame_of_not_empty he
  have hstep : occ s.popFront = ptrDist (s.rbin + 1) s.wbin :=
    congrArg (ptrDist · s.wbin) (nextPtr_eq_add_one s.rbin)
  rw [hstep]
  exact ptrDist_add_one_left (show 0 < (occ s).toNat by omega)

theorem BlockInv.accept (hf : wrFull s = false) (f : Slot) : BlockInv (s.accept f) :=
  have hocc := h.occ_accept hf f
  { h with
    wgray := rfl
    wChain := by
      have hroom := h.room_of_not_full hf
      rw [hocc]
      exact hroom
    rChain := by
      rw [hocc]
      have hmove := chainDist_add_one_le s.wbin s.rq
      rw [← nextPtr_eq_add_one] at hmove
      exact Nat.le_trans hmove (Nat.add_le_add_right h.rChain 1)
    listed := by
      intro k hk
      rw [hocc] at hk
      rcases Nat.lt_succ_iff_lt_or_eq.1 hk with hk | rfl
      · exact Memory.lookup_store_isSome f (h.listed k hk)
      · show (Memory.lookup (Memory.store s.mem (ptrIdx s.wbin).toNat f) (ptrIdx (s.rbin + _)).toNat).isSome = true
        rw [rbin_add_occ, Memory.lookup_store_same]
        rfl }

theorem BlockInv.popFront (he : rdEmpty s = false)
    (hid : (memRead s (liveSlot (ptrIdx s.rbin))).id < 2 ^ s.params.idW) : BlockInv s.popFront :=
  have hocc := h.occ_popFront he
  { h with
    rgray := rfl
    wChain := by
      have hmove := chainDist_add_one_le s.rbin s.wq
      rw [← nextPtr_eq_add_one] at hmove
      have hchain := h.wChain
      show chainDist (nextPtr s.rbin) s.wq + _ ≤ 8
      omega
    rChain := by
      have hframe := h.frame_of_not_empty he
      show chainDist s.wbin s.rq ≤ _
      omega
    listed := by
      intro k hk
      have hlisted := h.listed (k + 1) (by omega)
      rw [Nat.add_comm k 1, BitVec.ofNat_add, ← add_assoc] at hlisted
      show (Memory.lookup s.mem (ptrIdx (nextPtr s.rbin + _)).toNat).isSome = true
      rwa [nextPtr_eq_add_one]
    fid := hid }

end

/-! ### What keeps the invariant -/

/-- The invariant says nothing of the model's own fields. -/
theorem Inv.hostFields {s : State} (h : Inv s) (d : Draw) (o : Option Observation) (e : Nat) (es : List HostEvent) :
    Inv { s with draw := d, observed := o, epoch := e, pending := es } :=
  { h with block := fun hl => { h.block hl with } }

/-- The block right after a reset (10_state.md R42), settled at 0. -/
theorem inv_resetOf {p : Params} (hcap : p.cap = 8) (hid : 1 ≤ p.idW) (hst : 2 ≤ p.syncStages) :
    Inv (State.resetOf p) where
  mem := rfl
  ids := nofun
  block _ :=
    have hchain : chainDist 0 (List.replicate p.syncStages 0) = 0 :=
      chainDist_of_settled fun _ hg => List.eq_of_mem_replicate hg
    have hocc : (occ (State.resetOf p)).toNat = 0 := congrArg BitVec.toNat (ptrDist_self 0)
    have hgray : (0 : Ptr) = bin2gray 0 := by decide
    { valid := by simp [State.validParams, Params.inRange, State.resetOf, hcap, hid, hst]
      wgray := hgray
      rgray := hgray
      wqLen := List.length_replicate
      rqLen := List.length_replicate
      wChain := (Nat.add_le_add hchain.le hocc.le).trans (Nat.zero_le 8)
      rChain := hchain.le.trans (Nat.zero_le _)
      listed := fun k hk => absurd (hocc ▸ hk) (Nat.not_lt_zero k)
      fid := Nat.two_pow_pos _ }

theorem Inv.resetBlock {s : State} (hv : s.validParams = true) : Inv s.resetBlock := by
  simp only [State.validParams, Params.inRange, Bool.and_eq_true, decide_eq_true_eq] at hv
  obtain ⟨hcap, hid, hst⟩ := hv
  exact (inv_resetOf hcap hid hst).hostFields _ _ _ _

theorem Inv.powerCycle (s : State) : Inv s.powerCycle where
  mem := rfl
  ids := nofun
  block := nofun

section
variable {s : State} (h : Inv s)
include h

theorem Inv.front_id_lt (hl : s.live = true) (he : rdEmpty s = false) :
    (memRead s (liveSlot (ptrIdx s.rbin))).id < 2 ^ s.params.idW := by
  obtain ⟨f, hf, hread⟩ := (h.block hl).exists_front he
  rw [hread]
  exact h.ids _ (Memory.mem_of_lookup hf)

theorem Inv.of_writeEffect {i : Instr} (hi : i.wellFormed s.params = true) : Inv (writeEffect i s) := by
  obtain he | ⟨id, v, len, rfl, hf, he⟩ := writeEffect_cases i s
  · rw [he]
    exact { h with block := fun hl => (h.block hl).setWrAck false }
  · rw [he]
    exact {
      mem := Memory.store_wf h.mem _ _
      ids := fun c hc => by
        rcases Memory.mem_store hc with rfl | hc
        · exact of_decide_eq_true hi
        · exact h.ids c hc
      block := fun hl => (h.block hl).accept hf _ }

theorem Inv.of_readEffect (i : Instr) : Inv (readEffect i s) := by
  obtain ⟨-, he⟩ | ⟨-, -, he⟩ | ⟨-, hne, he⟩ := readEffect_cases i s <;> rw [he]
  · exact h
  · exact { h with block := fun hl => (h.block hl).setResult false (Nat.two_pow_pos _) }
  · exact { h with block := fun hl => (h.block hl).popFront hne (h.front_id_lt hl hne) }

end

theorem writeEffect_sync (i : Instr) (s : State) :
    (writeEffect i s).wq = s.wq ∧ (writeEffect i s).rgray = s.rgray ∧ (writeEffect i s).params = s.params := by
  obtain he | ⟨id, v, len, -, -, he⟩ := writeEffect_cases i s <;> rw [he] <;> exact ⟨rfl, rfl, rfl⟩

theorem readEffect_sync (i : Instr) (s : State) :
    (readEffect i s).rq = s.rq ∧ (readEffect i s).wgray = s.wgray ∧ (readEffect i s).params = s.params := by
  obtain ⟨-, he⟩ | ⟨-, -, he⟩ | ⟨-, -, he⟩ := readEffect_cases i s <;> rw [he] <;> exact ⟨rfl, rfl, rfl⟩

/-- Every well-formed command keeps the invariant: its effect does, and the advance of the synchronizer beside it. -/
theorem Inv.of_exec {i : Instr} {s t : State} (h : Inv s) (hi : i.wellFormed s.params = true)
    (ht : exec i s = .next t) : Inv t := by
  obtain rfl | hw | hr | ⟨o, d, ho⟩ := command_cases i
  · obtain ⟨hv, rfl⟩ := exec_reset_next.1 ht
    exact .resetBlock hv
  · obtain ⟨-, g, hg, rfl⟩ := (exec_write_next hw).1 ht
    have hk := h.of_writeEffect hi
    obtain ⟨hq, hsrc, hp⟩ := writeEffect_sync i s
    rw [← hq, ← hsrc] at hg
    rw [← hq, ← hp]
    exact { hk with block := fun hl => (hk.block hl).shiftWq hg }
  · obtain ⟨-, g, hg, rfl⟩ := (exec_read_next hr).1 ht
    have hk := h.of_readEffect i
    obtain ⟨hq, hsrc, hp⟩ := readEffect_sync i s
    rw [← hq, ← hsrc] at hg
    rw [← hq, ← hp]
    exact { hk with block := fun hl => (hk.block hl).shiftRq hg }
  · rw [exec_observation ho] at ht
    obtain ⟨-, -, rfl⟩ := observe_next.1 ht
    exact h.hostFields _ _ _ _

end Sys2Proof.Machine
end

