-- ==== Sys2Proof/Proofs/Decoder.lean ====
section
/-!
PROOFS. The decoder and the step (30_encoding.md R81 to R91): what is decoded is well-formed, decoding undoes encoding,
and what an unknown pin, an X word of 0 and a power cycle do.
-/

namespace Sys2Proof

/-! ### What is decoded fits its fields -/

/-- Reading a field gives its levels when every pin of it is known (30_encoding.md R88). -/
theorem PinWord.readField_eq_some {w : PinWord} {lo n v : Nat} :
    w.readField lo n = some v ↔ (w.unknown >>> lo) % 2 ^ n = 0 ∧ w.rawField lo n = v := by
  unfold readField
  split <;> simp [*]

theorem PinWord.rawField_lt (w : PinWord) (lo n : Nat) : w.rawField lo n < 2 ^ n :=
  Nat.mod_lt _ (Nat.two_pow_pos n)

/-- What the X word leaves to decode is RESET, the port's own answer, or a stop (30_encoding.md R83). -/
theorem decodeReset_eq_instr {x : PinWord} {port : Decoded} {i : Instr} (h : decodeReset x port = .instr i) :
    i = .reset ∨ port = .instr i := by
  unfold decodeReset at h
  split at h
  · cases h
  · cases h
    exact .inl rfl
  · exact .inr h

theorem decodeWrite_eq_instr {p : Params} {w : PinWord} {i : Instr} (h : decodeWrite p w = .instr i) :
    i = .wrNop ∨ ∃ id v len, i = .push id v len ∧ id < 2 ^ p.idW := by
  unfold decodeWrite at h
  split at h
  · cases h
  · cases h
    exact .inl rfl
  · split at h
    · rename_i hid _
      cases h
      exact .inr ⟨_, _, _, rfl, (PinWord.readField_eq_some.1 hid).2 ▸ w.rawField_lt 1 p.idW⟩
    · cases h

theorem decodeRead_eq_instr {r : PinWord} {i : Instr} (h : decodeRead r = .instr i) : i = .rdNop ∨ i = .pop := by
  unfold decodeRead at h
  split at h
  · cases h
  · cases h
    exact .inl rfl
  · cases h
    exact .inr rfl

/-- Every command the decoder yields is well-formed: a field's value fits the field. -/
theorem wellFormed_of_decode {p : Params} {smp : Sample} {i : Instr} (h : decode p smp = .instr i) :
    i.wellFormed p = true := by
  cases smp with
  | reset x =>
    obtain rfl | h := decodeReset_eq_instr h
    · rfl
    · cases h
  | write x w =>
    obtain rfl | h := decodeReset_eq_instr h
    · rfl
    · obtain rfl | ⟨id, v, len, rfl, hid⟩ := decodeWrite_eq_instr h
      · rfl
      · exact decide_eq_true hid
  | read x r =>
    obtain rfl | h := decodeReset_eq_instr h
    · rfl
    · obtain rfl | rfl := decodeRead_eq_instr h <;> rfl
  | observe o d =>
    cases h
    cases o <;> rfl

/-! ### Decoding undoes encoding -/

/-- A push word, one field above the other (30_encoding.md R81). -/
theorem pushWord_eq (p : Params) (id : Nat) (v : Payload) (len : Len) :
    pushWord p id v len = 1 + 2 * (id + 2 ^ p.idW * (v.toNat + 2 ^ 64 * len.toNat)) := by
  simp only [pushWord, pow_add]
  ring

/-- The fields of a push word, read back (30_encoding.md R81). -/
theorem pushWord_fields (p : Params) {id : Nat} (v : Payload) (len : Len) (hid : id < 2 ^ p.idW) :
    pushWord p id v len % 2 = 1 ∧ pushWord p id v len / 2 % 2 ^ p.idW = id ∧
      pushWord p id v len / 2 ^ (p.idW + 1) = v.toNat + 2 ^ 64 * len.toNat ∧
      pushWord p id v len / 2 ^ (p.idW + 65) = len.toNat := by
  have hv := v.isLt
  have hword := pushWord_eq p id v len
  have hhalf : pushWord p id v len / 2 = id + 2 ^ p.idW * (v.toNat + 2 ^ 64 * len.toNat) := by omega
  have hhigh : pushWord p id v len / 2 ^ (p.idW + 1) = v.toNat + 2 ^ 64 * len.toNat := by
    rw [Nat.pow_succ', ← Nat.div_div_eq_div_mul, hhalf, Nat.add_mul_div_left _ _ (Nat.two_pow_pos _),
      Nat.div_eq_of_lt hid, Nat.zero_add]
  refine ⟨by omega, ?_, hhigh, ?_⟩
  · rw [hhalf, Nat.add_mul_mod_self_left, Nat.mod_eq_of_lt hid]
  · rw [show p.idW + 65 = p.idW + 1 + 64 from rfl, Nat.pow_add, ← Nat.div_div_eq_div_mul, hhigh,
      Nat.add_mul_div_left _ _ (Nat.two_pow_pos 64), Nat.div_eq_of_lt hv, Nat.zero_add]

/-- A push comes back from its word: each field is cut out where the word put it. -/
theorem decodeWrite_pushWord (p : Params) {id : Nat} (v : Payload) (len : Len) (hid : id < 2 ^ p.idW) :
    decodeWrite p (.known (pushWord p id v len)) = .instr (.push id v len) := by
  obtain ⟨hen, hidf, hpay, hlen⟩ := pushWord_fields p v len hid
  have hv : BitVec.ofNat 64 (v.toNat + 2 ^ 64 * len.toNat) = v :=
    BitVec.eq_of_toNat_eq (by rw [BitVec.toNat_ofNat, Nat.add_mul_mod_self_left, Nat.mod_eq_of_lt v.isLt])
  rw [decodeWrite_known, if_pos hen, hidf, hpay, hlen, hv, BitVec.ofNat_toNat, BitVec.setWidth_eq]

theorem decode_encode_push (p : Params) {id : Nat} (v : Payload) (len : Len) (hid : id < 2 ^ p.idW) :
    decode p (encode p (.push id v len)) = .instr (.push id v len) :=
  (decodeReset_known 0 _).trans (decodeWrite_pushWord p v len hid)

/-- Settles O2: a push by its word's fields; of the other commands each word is one bit, and an observation has none. -/
theorem decodeOfEncode : Obligations.DecodeOfEncode := by
  intro p i hi
  cases i with
  | push id v len => exact decode_encode_push p v len (of_decide_eq_true hi)
  | reset => rfl
  | wrNop => rfl
  | pop => rfl
  | rdNop => rfl
  | size port observer => cases port <;> rfl
  | isEmpty port observer => cases port <;> rfl
  | isFull port observer => cases port <;> rfl
  | readCursor observer => rfl
  | writeCursor observer => rfl
  | readResult o observer => cases o <;> rfl

/-- Settles O3: a W word is put together again from the fields it is cut into. -/
theorem pushWordHasOneMeaning : Obligations.PushWordHasOneMeaning := by
  intro p w hw hen
  refine ⟨w / 2 % 2 ^ p.idW, BitVec.ofNat 64 (w / 2 ^ (p.idW + 1)), BitVec.ofNat 4 (w / 2 ^ (p.idW + 65)), ?_,
    Nat.mod_lt _ (Nat.two_pow_pos _), ?_⟩
  · rw [decode, decodeReset_known, decodeWrite_known, if_neg (by decide), if_pos hen]
  · have hhigh : w / 2 ^ (p.idW + 1) = w / 2 / 2 ^ p.idW := by rw [Nat.pow_succ', Nat.div_div_eq_div_mul]
    have hlen : w / 2 ^ (p.idW + 65) = w / 2 / 2 ^ p.idW / 2 ^ 64 := by
      rw [show p.idW + 65 = p.idW + 1 + 64 from rfl, Nat.pow_add, ← Nat.div_div_eq_div_mul, hhigh]
    have hlt : w / 2 / 2 ^ p.idW / 2 ^ 64 < 2 ^ 4 := by
      rw [← hlen]
      refine Nat.div_lt_of_lt_mul ?_
      rwa [← Nat.pow_add]
    rw [pushWord_eq, BitVec.toNat_ofNat, BitVec.toNat_ofNat, hhigh, hlen, Nat.mod_eq_of_lt hlt, Nat.mod_add_div,
      Nat.mod_add_div]
    omega

/-! ### Unknown pins -/

section
variable {w : PinWord}

theorem PinWord.readBit_of_unknown {i : Nat} (h : w.unknown.testBit i = true) : w.readBit i = none := if_pos h

/-- One unknown pin makes its field unreadable. -/
theorem PinWord.readField_of_unknown {lo n j : Nat} (hlo : lo ≤ j) (hn : j < lo + n)
    (h : w.unknown.testBit j = true) : w.readField lo n = none := by
  refine if_neg fun hz => ?_
  have hbit : ((w.unknown >>> lo) % 2 ^ n).testBit (j - lo) = true := by
    rw [Nat.testBit_mod_two_pow, Nat.testBit_shiftRight, Nat.add_sub_cancel' hlo, h, decide_eq_true (by omega)]
    rfl
  rw [hz, Nat.zero_testBit] at hbit
  cases hbit

theorem PinWord.readField_of_known {lo n : Nat} (h : ∀ j, lo ≤ j → j < lo + n → w.unknown.testBit j = false) :
    w.readField lo n = some (w.rawField lo n) := by
  refine if_pos (Nat.zero_of_testBit_eq_false fun i => ?_)
  rw [Nat.testBit_mod_two_pow, Nat.testBit_shiftRight]
  by_cases hi : i < n
  · rw [h (lo + i) (Nat.le_add_right lo i) (Nat.add_lt_add_left hi lo), Bool.and_false]
  · rw [decide_eq_false hi, Bool.false_and]

theorem decodeReset_of_unknown (port : Decoded) (h : w.unknown.testBit 0 = true) :
    decodeReset w port = .unknownInput := by
  simp only [decodeReset, PinWord.readBit_of_unknown h]

theorem decodeReset_of_one (port : Decoded) (h : w.readBit 0 = some true) : decodeReset w port = .instr .reset := by
  simp only [decodeReset, h]

theorem decodeReset_of_zero (port : Decoded) (h : w.readBit 0 = some false) : decodeReset w port = port := by
  simp only [decodeReset, h]

/-- The identifier or the payload of a push has an unknown pin. -/
theorem decodeWrite_of_unknown_field {p : Params} {j : Nat} (hen : w.readBit 0 = some true) (h1 : 1 ≤ j)
    (hj : j ≤ p.idW + 64) (h : w.unknown.testBit j = true) : decodeWrite p w = .unknownInput := by
  by_cases hid : j ≤ p.idW
  · simp only [decodeWrite, hen, PinWord.readField_of_unknown (n := p.idW) h1 (by omega) h]
  · have hpay : w.readField (p.idW + 1) 64 = none := PinWord.readField_of_unknown (by omega) (by omega) h
    cases hread : w.readField 1 p.idW <;> simp only [decodeWrite, hen, hread, hpay]

/-- Every pin of the identifier and of the payload is known; the length's need not be. -/
theorem decodeWrite_of_known_fields {p : Params} (hen : w.readBit 0 = some true)
    (h : ∀ j, 1 ≤ j → j ≤ p.idW + 64 → w.unknown.testBit j = false) :
    ∃ len, decodeWrite p w =
      .instr (.push (w.bits / 2 % 2 ^ p.idW) (BitVec.ofNat 64 (w.bits / 2 ^ (p.idW + 1))) len) := by
  have hid : w.readField 1 p.idW = some (w.rawField 1 p.idW) :=
    PinWord.readField_of_known fun j h1 hj => h j h1 (by omega)
  have hpay : w.readField (p.idW + 1) 64 = some (w.rawField (p.idW + 1) 64) :=
    PinWord.readField_of_known fun j h1 hj => h j (by omega) (by omega)
  refine ⟨BitVec.ofNat 4 (w.rawField (p.idW + 65) 4), ?_⟩
  simp only [decodeWrite, hen, hid, hpay]
  rw [PinWord.rawField, PinWord.rawField, ofNat_mod_two_pow, Nat.shiftRight_eq_div_pow, Nat.shiftRight_eq_div_pow,
    pow_one]

end

namespace Machine

section
variable {s : State} {smp : Sample} {d : Draw} {rest : List HostEvent} (hp : s.pending = .sample smp d :: rest)
include hp

theorem step_of_decode {i : Instr} (hd : decode s.params smp = .instr i) : step s = exec i (s.taken rest d) := by
  simp only [step, fetch_of_decode hp hd]

theorem step_of_unknownInput (hd : decode s.params smp = .unknownInput) : step s = .refused .unknownInput := by
  simp only [step, fetch, hp, hd]

end

theorem observe_ne_unknownInput (o : Output) (d : Domain) (s : State) : observe o d s ≠ .refused .unknownInput := by
  unfold observe whenLive whenValid
  split
  · nofun
  · split
    · nofun
    · split
      · split <;> nofun
      · nofun

/-- Settles O5: the decoder reads `rst` first, then the enable, then the fields of a push up to its payload. -/
theorem unknownPinsAreRefused : Obligations.UnknownPinsAreRefused := by
  intro s smp d rest hp
  cases smp with
  | reset x => exact fun hx => step_of_unknownInput hp (decodeReset_of_unknown _ hx)
  | write x w =>
    refine ⟨fun hx => step_of_unknownInput hp (decodeReset_of_unknown _ hx), fun hx hw => ?_,
      fun hx hen ⟨j, h1, hj, hw⟩ => ?_, fun hx hen hw => ?_, fun hx hen => ?_,
      fun hx => step_of_decode hp (decodeReset_of_one _ hx)⟩
    · refine step_of_unknownInput hp ((decodeReset_of_zero _ hx).trans ?_)
      simp only [decodeWrite, PinWord.readBit_of_unknown hw]
    · exact step_of_unknownInput hp ((decodeReset_of_zero _ hx).trans (decodeWrite_of_unknown_field hen h1 hj hw))
    · obtain ⟨len, hlen⟩ := decodeWrite_of_known_fields hen hw
      exact ⟨len, step_of_decode hp ((decodeReset_of_zero _ hx).trans hlen)⟩
    · refine step_of_decode hp ((decodeReset_of_zero _ hx).trans ?_)
      simp only [decodeWrite, hen]
  | read x r =>
    refine ⟨fun hx => step_of_unknownInput hp (decodeReset_of_unknown _ hx), fun hx hr => ?_, fun hx hen => ?_,
      fun hx hen => ?_, fun hx => step_of_decode hp (decodeReset_of_one _ hx)⟩
    · refine step_of_unknownInput hp ((decodeReset_of_zero _ hx).trans ?_)
      simp only [decodeRead, PinWord.readBit_of_unknown hr]
    · refine step_of_decode hp ((decodeReset_of_zero _ hx).trans ?_)
      simp only [decodeRead, hen]
    · refine step_of_decode hp ((decodeReset_of_zero _ hx).trans ?_)
      simp only [decodeRead, hen]
  | observe o observer =>
    show step s ≠ .refused .unknownInput
    have hobs : observation (decodeOutput o observer) = some (o, observer) := by cases o <;> rfl
    rw [step_of_decode hp rfl, exec_observation hobs]
    exact observe_ne_unknownInput o observer _

/-! ### The pseudo-instructions -/

theorem extractByte_append_add {n : Nat} (hi : BitVec n) (b : Byte) (lo : Nat) :
    (hi ++ b).extractLsb' (lo + 8) 8 = hi.extractLsb' lo 8 :=
  BitVec.extractLsb'_append_eq_of_le (Nat.le_add_left 8 lo)

theorem extractByte_append_zero {n : Nat} (hi : BitVec n) (b : Byte) : (hi ++ b).extractLsb' 0 8 = b :=
  BitVec.extractLsb'_append_eq_right

/-- The bytes of a packed payload, in array order (30_encoding.md R90): each byte below moves it up by eight bits. -/
theorem payloadByte_packBytes (b0 b1 b2 b3 b4 b5 b6 b7 : Byte) {v : Payload}
    (hv : v = packBytes b0 b1 b2 b3 b4 b5 b6 b7) :
    payloadByte v 0 = b0 ∧ payloadByte v 1 = b1 ∧ payloadByte v 2 = b2 ∧ payloadByte v 3 = b3 ∧
      payloadByte v 4 = b4 ∧ payloadByte v 5 = b5 ∧ payloadByte v 6 = b6 ∧ payloadByte v 7 = b7 := by
  subst hv
  simp [payloadByte, packBytes, extractByte_append_add, extractByte_append_zero]

/-- Settles O6: both pseudo-instructions present the word of a push, and a push comes back from its word. -/
theorem pseudoPushesDecode : Obligations.PseudoPushesDecode :=
  ⟨fun p _ b0 b1 b2 b3 b4 b5 b6 b7 hid => ⟨_, packBytes b0 b1 b2 b3 b4 b5 b6 b7, rfl, decode_encode_push p _ 8 hid,
      payloadByte_packBytes b0 b1 b2 b3 b4 b5 b6 b7 rfl⟩,
    fun p f hid => ⟨_, rfl, decode_encode_push p f.payload f.len hid⟩⟩

/-! ### The step -/

/-- Settles O1: each word computed. -/
theorem specWordsDecode : Obligations.SpecWordsDecode := by
  unfold Obligations.SpecWordsDecode
  decide

/-- Settles O7: `State.taken` is that record. -/
theorem stepRunsDecodedCommand : Obligations.StepRunsDecodedCommand := fun _ _ _ _ _ hp =>
  step_of_decode hp

/-- Settles O8: the three answers of `fetch` that run no command. -/
theorem stepsWithoutCommand : Obligations.StepsWithoutCommand := by
  refine ⟨fun s hp => step_next.2 (.inr ?_), fun s d rest hp => step_next.2 (.inr ?_), fun s rest hp => ?_⟩
  · simp only [fetch, hp]
  · have hd : decode s.params (.reset (.known 0)) = .nothing := decodeReset_known 0 .nothing
    simp only [fetch, hp, hd]
    rfl
  · refine ⟨(s.dropEvent rest).powerCycle, step_next.2 (.inr ?_), rfl, rfl, rfl⟩
    simp only [fetch, hp]

end Machine

end Sys2Proof
end

