-- ==== Sys2Proof/Proofs/StepInvariant.lean ====
section
/-!
PROOFS. What every step keeps: the invariant, the canonical storage, the parameters; and what the invariant says of the
two views (10_state.md R44, 41_gray_counter_cdc.md R125, R130).
-/

namespace Sys2Proof.Machine

/-! ### From a command to a step -/

/-- A step runs a well-formed command in the state that has taken its event, or leaves the block as it is, or loses its
power. -/
theorem step_cases {s t : State} (h : step s = .next t) :
    (∃ i es d, i.wellFormed s.params = true ∧ exec i (s.taken es d) = .next t) ∨
      t = s ∨ (∃ es, t = s.dropEvent es) ∨ ∃ es, t = (s.dropEvent es).powerCycle := by
  unfold step fetch at h
  cases hp : s.pending with
  | nil =>
    simp only [hp, Host.Outcome.next.injEq] at h
    exact .inr (.inl h.symm)
  | cons e rest =>
    cases e with
    | powerOn =>
      simp only [hp, Host.Outcome.next.injEq] at h
      exact .inr (.inr (.inr ⟨rest, h.symm⟩))
    | sample smp d =>
      cases hd : decode s.params smp with
      | instr i =>
        simp only [hp, hd] at h
        exact .inl ⟨i, rest, d, wellFormed_of_decode hd, h⟩
      | nothing =>
        simp only [hp, hd, Host.Outcome.next.injEq] at h
        exact .inr (.inr (.inl ⟨rest, h.symm⟩))
      | unknownInput => simp only [hp, hd, reduceCtorEq] at h

/-- Settles O37: `inv_resetOf`, of which State.reset is a case. -/
theorem resetMeetsTheInvariant : Obligations.ResetMeetsTheInvariant :=
  ⟨inv_resetOf rfl (by decide) (by decide), fun _ => inv_resetOf⟩

/-- Settles O38: a decoded command is well-formed, so it keeps the invariant, which does not speak of the host's
events. -/
theorem stepKeepsTheInvariant : Obligations.StepKeepsTheInvariant := by
  intro s t h ht
  obtain ⟨i, es, d, hi, ht⟩ | rfl | ⟨es, rfl⟩ | ⟨es, rfl⟩ := step_cases ht
  · exact (h.hostFields d s.observed s.epoch es).of_exec hi ht
  · exact h
  · exact h.hostFields s.draw s.observed s.epoch es
  · exact .powerCycle _

/-! ### Storage -/

/-- A write command leaves the slots as they are, or writes one live slot. -/
theorem exec_mem_wf {i : Instr} {s t : State} (hm : s.mem.wf = true) (h : exec i s = .next t) : t.mem.wf = true := by
  obtain rfl | hi | hi | ⟨o, d, hi⟩ := command_cases i
  · obtain ⟨-, rfl⟩ := exec_reset_next.1 h
    rfl
  · obtain ⟨q, rfl | ⟨id, v, len, -, -, rfl⟩⟩ := exec_write_cases hi h
    · exact hm
    · exact Memory.store_wf hm _ _
  · obtain ⟨q, rfl | rfl | ⟨-, -, rfl⟩⟩ := exec_read_cases hi h <;> exact hm
  · rw [exec_observation hi] at h
    obtain ⟨-, -, rfl⟩ := observe_next.1 h
    exact hm

/-- Settles O39: by what the step's command does; slot 8 is not stored at all. -/
theorem stepKeepsStorageCanonical : Obligations.StepKeepsStorageCanonical := by
  intro s t hm ht
  refine (?_ : t.mem.wf = true ∧ t.params = s.params).imp_right fun hp => ⟨hp, memRead_sentinelSlot t⟩
  obtain ⟨i, es, d, -, ht⟩ | rfl | ⟨es, rfl⟩ | ⟨es, rfl⟩ := step_cases ht
  · exact ⟨exec_mem_wf (s := s.taken es d) hm ht, exec_params (s := s.taken es d) ht⟩
  · exact ⟨hm, rfl⟩
  · exact ⟨hm, rfl⟩
  · exact ⟨rfl, rfl⟩

/-! ### The views -/

/-- Settles O40: the two lags bound the counts, and a flag that is 0 says its count is not at its bound. -/
theorem viewsAreConservative : Obligations.ViewsAreConservative := by
  intro s h hl
  have hb := h.block hl
  obtain ⟨hrd, hwr, hcap⟩ := hb.counts_bound
  refine ⟨hrd, hwr, hcap, fun hf => ?_, fun he => ?_, hb.wgray, hb.rgray⟩
  · have hroom := hb.room_of_not_full hf
    omega
  · have hframe := hb.frame_of_not_empty he
    omega

/-- Settles O41: the chains' bounds stand in the invariant, and a chain within them has not wrapped. -/
theorem synchronizerChainsAreOrdered : Obligations.SynchronizerChainsAreOrdered := by
  intro s h hl
  have hb := h.block hl
  exact ⟨hb.wrView_toNat.symm, hb.wChain, hb.rdView_toNat.symm, hb.rChain⟩

/-! ### Pops -/

/-- Settles O43: a pop with `rd_valid` has seen a frame, so its slot is a live frame's, which the invariant lists. -/
theorem popsReadPushedSlots : Obligations.PopsReadPushedSlots := by
  intro s t h ht hv
  obtain ⟨hr, g, -, rfl⟩ := (exec_read_next rfl).1 ht
  have hl : s.live = true := live_of_ready hr
  obtain ⟨hp, -⟩ | ⟨-, -, he⟩ | ⟨-, hne, he⟩ := readEffect_cases .pop s
  · exact absurd rfl hp
  · rw [he] at hv
    cases hv
  · obtain ⟨f, hf, hread⟩ := (h.block hl).exists_front hne
    rw [he, State.popFront, hread]
    exact ⟨f, hf, rfl, rfl, h.ids _ (Memory.mem_of_lookup hf)⟩

end Sys2Proof.Machine
end

