-- ==== Sys2Proof/Proofs/Completion.lean ====
section
/-!
PROOFS. When a command completes (60_exceptions.md R200), and three refusals: another capacity (00_scope.md R8), a draw
outside the window (95_test_vectors.md T3), and what RESET does not read.
-/

namespace Sys2Proof.Machine

/-- A prompt and a late draw are in every window (41_gray_counter_cdc.md R123). -/
theorem exists_sampled {d : Draw} (hd : d = .now ∨ d = .old) (f src : Ptr) : ∃ g, sampled d f src = some g := by
  obtain rfl | rfl := hd
  · exact ⟨src, sampled_now f src⟩
  · exact ⟨f, sampled_old f src⟩

/-- Settles O34: RESET by the parameters, each agent's step by its draw, an observation by its domain. -/
theorem everyCommandCompletes : Obligations.EveryCommandCompletes := by
  intro i s hr hd ho
  obtain rfl | hi | hi | ⟨o, observer, hi⟩ := command_cases i
  · exact ⟨_, exec_reset_next.2 ⟨((ready_iff s).1 hr).1, rfl⟩⟩
  · obtain ⟨g, hg⟩ := exists_sampled hd (firstStage s.wq) s.rgray
    exact ⟨_, (exec_write_next hi).2 ⟨hr, g, hg, rfl⟩⟩
  · obtain ⟨g, hg⟩ := exists_sampled hd (firstStage s.rq) s.wgray
    exact ⟨_, (exec_read_next hi).2 ⟨hr, g, hg, rfl⟩⟩
  · obtain rfl := ho o observer hi
    obtain ⟨t, ht, -⟩ := exec_observation_completes hi hr
    exact ⟨t, ht⟩

theorem whenValid_of_other_cap {s : State} (h : s.params.cap ≠ 8) (r : Result) : whenValid s r = .refused .capNot8 :=
  if_pos h

/-- Settles O13: every command is guarded by the parameters, the capacity first. -/
theorem otherCapacitiesAreRefused : Obligations.OtherCapacitiesAreRefused := by
  intro i s h
  by_cases hi : i = .reset
  · subst hi
    exact whenValid_of_other_cap h _
  · obtain ⟨r, hr⟩ := exec_eq_whenLive hi s
    rw [hr]
    exact whenValid_of_other_cap h _

/-- An advance of more positions than lie between the first stage and the source samples nothing; of 16 or more, it
never does (log 11). -/
theorem sampled_plus_of_lt {f src : Ptr} {k : Nat} (h : (ptrDist (gray2bin f) (gray2bin src)).toNat < k) :
    sampled (.plus k) f src = none := by
  refine if_neg fun ⟨hk, hwin⟩ => ?_
  have hdist : ptrDist (gray2bin f) (gray2bin (bin2gray (gray2bin f + BitVec.ofNat 4 k))) = BitVec.ofNat 4 k := by
    rw [gray2bin_bin2gray]
    exact add_sub_cancel_left (gray2bin f) (BitVec.ofNat 4 k)
  have hle := BitVec.le_def.1 (of_decide_eq_true hwin)
  rw [hdist, BitVec.toNat_ofNat, Nat.mod_eq_of_lt hk] at hle
  omega

/-- Settles O19: outside the window nothing is sampled, and the step of either agent stops there. -/
theorem drawsOutsideTheWindowAreRefused : Obligations.DrawsOutsideTheWindowAreRefused := by
  refine ⟨fun i s k hi hr hd h => ?_, fun i s k hi hr hd h => ?_⟩
  · rw [exec_eq_writeStep_effect hi, writeStep, whenLive_of_ready hr, hd, sampled_plus_of_lt h]
  · rw [exec_eq_readStep_effect hi, readStep, whenLive_of_ready hr, hd, sampled_plus_of_lt h]

/-- Settles O11: RESET's guard reads the parameters, its effect the parameters and the model's own fields. -/
theorem resetForgetsTheBlock : Obligations.ResetForgetsTheBlock := by
  intro s s' hp hd ho he hpend
  show whenValid s (.next s.resetBlock) = whenValid s' (.next s'.resetBlock)
  rw [resetBlock_congr hp hd ho he hpend, whenValid_congr hp]

end Sys2Proof.Machine
end

