-- ==== Sys2Proof/Proofs/PointerForms.lean ====
section
/-!
PROOFS. Pointers modulo 16 (40_circular_index.md R103 to R105), and the Gray forms of an advance and of the full and
empty tests (41_gray_counter_cdc.md R122, R129).
-/

namespace Sys2Proof.Machine

theorem nextPtr_iterate (n : Nat) (p : Ptr) : nextPtr^[n] p = p + BitVec.ofNat 4 n := by
  induction n generalizing p with
  | zero => exact (BitVec.add_zero p).symm
  | succ n ih =>
    rw [Function.iterate_succ_apply, ih, nextPtr_eq_add_one, add_right_comm, BitVec.ofNat_add, ← add_assoc]
    rfl

theorem ptrDist_eq_zero_iff {a b : Ptr} : ptrDist a b = 0 ↔ a = b := by
  rw [ptrDist, sub_eq_zero, eq_comm]

theorem ptrDist_eq_eight_iff {a b : Ptr} : ptrDist a b = 8 ↔ b = a + 8 := sub_eq_iff_eq_add'

theorem ptrIdx_add_eight : ∀ p : Ptr, ptrIdx (p + 8) = ptrIdx p := by decide

theorem ptrLap_add_eight : ∀ p : Ptr, ptrLap (p + 8) = ptrLap p ^^^ 1 := by decide

/-- A pointer is its lap bit and its index (40_circular_index.md R100). -/
theorem ptr_ext_iff : ∀ a b : Ptr, a = b ↔ ptrIdx a = ptrIdx b ∧ ptrLap a = ptrLap b := by decide

/-- The lap bit is one of two, so what is not one is the other. -/
theorem lap_ne_iff : ∀ x y : BitVec 1, x ≠ y ↔ y = x ^^^ 1 := by decide

/-- Settles O15: addition modulo 16 throughout; a distance of 8 is eight advances, which keep the index and turn the
lap. -/
theorem pointerArithmetic : Obligations.PointerArithmetic := by
  refine ⟨nextPtr_eq_add_one, fun p => ⟨ptrIdx_add_eight p, ptrLap_add_eight p⟩, fun p => ⟨nextPtr_iterate 8 p, ?_⟩,
    fun a b => ?_, fun a b => ptrDist_eq_zero_iff, fun a b => ?_⟩
  · rw [nextPtr_iterate]
    exact BitVec.add_zero p
  · have ha := a.isLt
    rw [ptrDist_toNat]
    omega
  · rw [ptrDist_eq_eight_iff, ptr_ext_iff, ptrIdx_add_eight, ptrLap_add_eight, lap_ne_iff, eq_comm (a := ptrIdx b)]

/-- One advance changes one Gray bit (41_gray_counter_cdc.md R122). -/
theorem bin2gray_nextPtr : ∀ p : Ptr, ∃ k : Fin 4, bin2gray (nextPtr p) = bin2gray p ^^^ (1#4 <<< k.val) := by decide

/-- Eight advances turn the two top Gray bits (41_gray_counter_cdc.md R129). -/
theorem bin2gray_add_eight : ∀ p : Ptr, bin2gray (p + 8) = bin2gray p ^^^ 0b1100#4 := by decide

theorem bin2gray_injective : Function.Injective bin2gray := Function.LeftInverse.injective gray2bin_bin2gray

/-- Settles O17: each test compares two pointers, and the Gray code of the view is the last stage itself. -/
theorem grayFormsOfFullAndEmpty : Obligations.GrayFormsOfFullAndEmpty := by
  refine ⟨bin2gray_nextPtr, fun s hw => ?_, fun s hr => ?_⟩
  · rw [wrFull_iff, wrCount, ptrDist_eq_eight_iff, hw, ← bin2gray_injective.eq_iff, bin2gray_add_eight,
      bin2gray_gray2bin]
  · rw [rdEmpty_iff, rdCount, ptrDist_eq_zero_iff, hr, ← bin2gray_injective.eq_iff, bin2gray_gray2bin]

end Sys2Proof.Machine
end

