-- ==== Sys2Proof/Proofs/Queue.lean ====
section
/-!
PROOFS. The block as a queue (10_state.md R47, 20_memory.md R67 to R70): what each command does to the live frames, over
a run, and beside the source's buffer (90_conflicts.md C6, C7).
-/

namespace Sys2Proof.Machine

/-! ### The live frames -/

theorem contents_length (s : State) : (contents s).length = (occ s).toNat := by
  simp [contents]

theorem contents_eq_nil_iff (s : State) : contents s = [] ↔ occ s = 0 := by
  rw [← List.length_eq_zero_iff, contents_length]
  exact ⟨fun h => BitVec.eq_of_toNat_eq h, fun h => congrArg BitVec.toNat h⟩

@[simp] theorem contents_setWq (s : State) (q : List Ptr) : contents (s.setWq q) = contents s := rfl
@[simp] theorem contents_setRq (s : State) (q : List Ptr) : contents (s.setRq q) = contents s := rfl
@[simp] theorem contents_withDraw (s : State) (d : Draw) : contents (s.withDraw d) = contents s := rfl

/-- Positions less than a lap apart have different slots (40_circular_index.md R104). -/
theorem ptrIdx_add_ne (p : Ptr) {j k : Nat} (hjk : j < k) (hk : k < j + 8) :
    ptrIdx (p + BitVec.ofNat 4 j) ≠ ptrIdx (p + BitVec.ofNat 4 k) := by
  intro h
  have hnat := congrArg BitVec.toNat h
  simp only [ptrIdx_toNat, BitVec.toNat_add, BitVec.toNat_ofNat] at hnat
  omega

section
variable {s : State} (h : BlockInv s)
include h

/-- The slot that an accepted push writes is no live frame's. -/
theorem BlockInv.memRead_accept (hf : wrFull s = false) (f : Slot) {k : Nat} (hk : k < (occ s).toNat) :
    memRead (s.accept f) (liveSlot (ptrIdx (s.rbin + BitVec.ofNat 4 k))) =
      memRead s (liveSlot (ptrIdx (s.rbin + BitVec.ofNat 4 k))) := by
  have hroom := h.room_of_not_full hf
  refine memRead_storeSlot_ne s f fun he => ?_
  rw [← rbin_add_occ s] at he
  exact ptrIdx_add_ne s.rbin hk (by omega) (liveSlot_injective he)

theorem BlockInv.contents_accept (hf : wrFull s = false) (f : Slot) : contents (s.accept f) = contents s ++ [f] := by
  have hlast : memRead (s.accept f) (liveSlot (ptrIdx (s.rbin + BitVec.ofNat 4 (occ s).toNat))) = f := by
    rw [rbin_add_occ]
    exact memRead_storeSlot_same s (ptrIdx s.wbin) f
  rw [contents, h.occ_accept hf, List.range_succ, List.map_append, List.map_singleton]
  congr 1
  · exact List.map_congr_left fun k hk => h.memRead_accept hf f (List.mem_range.1 hk)
  · exact congrArg (fun v => [v]) hlast

theorem BlockInv.contents_popFront (he : rdEmpty s = false) :
    memRead s (liveSlot (ptrIdx s.rbin)) :: contents s.popFront = contents s := by
  have hshift : ∀ k, nextPtr s.rbin + BitVec.ofNat 4 k = s.rbin + BitVec.ofNat 4 (k + 1) := fun k => by
    rw [nextPtr_eq_add_one, Nat.add_comm, BitVec.ofNat_add, ← add_assoc]
    rfl
  have htail : contents s.popFront = (List.range (occ s.popFront).toNat).map
      fun k => memRead s (liveSlot (ptrIdx (s.rbin + BitVec.ofNat 4 (k + 1)))) :=
    List.map_congr_left fun k _ => congrArg (fun p => memRead s (liveSlot (ptrIdx p))) (hshift k)
  rw [htail, contents, ← h.occ_popFront he, List.range_succ_eq_map, List.map_cons, List.map_map, BitVec.add_zero]
  rfl

end

/-! ### What a command pushes and pops -/

theorem pushedBy_of_not_write {i : Instr} (hi : isWriteCommand i = false) (t : State) : pushedBy i t = [] := by
  cases i with
  | push id v len => cases hi
  | _ => rfl

theorem poppedBy_of_not_read {i : Instr} (hi : isReadCommand i = false) (t : State) : poppedBy i t = [] := by
  cases i with
  | pop => cases hi
  | _ => rfl

theorem pushedBy_of_not_ack (i : Instr) {t : State} (ht : t.wrAck = false) : pushedBy i t = [] := by
  cases i with
  | push id v len => exact if_neg (Bool.eq_false_iff.1 ht)
  | _ => rfl

theorem poppedBy_of_not_pop {i : Instr} (hi : i ≠ .pop) (t : State) : poppedBy i t = [] := by
  cases i with
  | pop => exact absurd rfl hi
  | _ => rfl

/-- The kinds of command exclude one another (30_encoding.md R85). -/
theorem not_read_of_write {i : Instr} (hi : isWriteCommand i = true) : isReadCommand i = false := by
  cases i with
  | push id v len => rfl
  | wrNop => rfl
  | _ => cases hi

theorem not_write_of_read {i : Instr} (hi : isReadCommand i = true) : isWriteCommand i = false :=
  Bool.eq_false_iff.2 fun hw => Bool.eq_false_iff.1 (not_read_of_write hw) hi

theorem not_agent_of_observation {i : Instr} {o : Output} {d : Domain} (hi : observation i = some (o, d)) :
    isWriteCommand i = false ∧ isReadCommand i = false := by
  cases i with
  | push id v len => cases hi
  | wrNop => cases hi
  | pop => cases hi
  | rdNop => cases hi
  | _ => exact ⟨rfl, rfl⟩

/-- What a command has popped and what is then left are what was there and what it has pushed. -/
theorem Inv.exec_queue {i : Instr} {s t : State} (h : Inv s) (hi : i ≠ .reset) (ht : exec i s = .next t) :
    poppedBy i t ++ contents t = contents s ++ pushedBy i t := by
  obtain hi' | hw | hr | ⟨o, d, ho⟩ := command_cases i
  · exact absurd hi' hi
  · obtain ⟨hready, g, -, rfl⟩ := (exec_write_next hw).1 ht
    have hb := h.block (live_of_ready hready)
    rw [poppedBy_of_not_read (not_read_of_write hw), List.nil_append, contents_setWq]
    obtain he | ⟨id, v, len, rfl, hf, he⟩ := writeEffect_cases i s <;> rw [he]
    · rw [pushedBy_of_not_ack i rfl, List.append_nil]
      rfl
    · exact hb.contents_accept hf _
  · obtain ⟨hready, g, -, rfl⟩ := (exec_read_next hr).1 ht
    have hb := h.block (live_of_ready hready)
    rw [pushedBy_of_not_write (not_write_of_read hr), List.append_nil, contents_setRq]
    obtain ⟨hne, he⟩ | ⟨rfl, -, he⟩ | ⟨rfl, hne, he⟩ := readEffect_cases i s <;> rw [he]
    · rw [poppedBy_of_not_pop hne, List.nil_append]
    · rfl
    · exact hb.contents_popFront hne
  · obtain ⟨hw, hr⟩ := not_agent_of_observation ho
    rw [exec_observation ho] at ht
    obtain ⟨-, -, rfl⟩ := observe_next.1 ht
    rw [poppedBy_of_not_read hr, pushedBy_of_not_write hw, List.append_nil]
    rfl

/-- Settles O44: RESET brings the pointers together; for the rest, `Inv.exec_queue`. -/
theorem commandsActOnTheQueue : Obligations.CommandsActOnTheQueue := by
  refine fun i s t h _ ht => ⟨?_, fun hi => h.exec_queue hi ht, ?_⟩
  · rintro rfl
    obtain ⟨-, rfl⟩ := exec_reset_next.1 ht
    exact (contents_eq_nil_iff _).2 (ptrDist_self 0)
  · rintro rfl hv
    have hpop : poppedBy .pop t = [] := if_neg (Bool.eq_false_iff.1 hv)
    have hq := h.exec_queue (i := .pop) nofun ht
    rwa [hpop, pushedBy_of_not_write rfl, List.append_nil] at hq

/-! ### Runs -/

theorem trace_cons {i : Instr} {d : Draw} {cs : List (Instr × Draw)} {s : State} {r : Trace} :
    trace ((i, d) :: cs) s = some r ↔ ∃ t r', exec i (s.withDraw d) = .next t ∧ trace cs t = some r' ∧
      r = Trace.mk (pushedBy i t ++ r'.pushed) (poppedBy i t ++ r'.popped) r'.final := by
  rw [trace]
  cases exec i (s.withDraw d) with
  | next t => cases hcs : trace cs t <;> simp [hcs, eq_comm]
  | fault e => cases e
  | refused e => simp

/-- What no command of a run changes is the same where it ends. -/
theorem trace_final_eq {α : Type} (f : State → α) {cs : List (Instr × Draw)} {s : State} {r : Trace}
    (hstep : ∀ c ∈ cs, ∀ u v, exec c.1 (u.withDraw c.2) = .next v → f v = f u) (h : trace cs s = some r) :
    f r.final = f s := by
  induction cs generalizing s r with
  | nil =>
    cases h
    rfl
  | cons c cs ih =>
    obtain ⟨t, r', ht, hr', rfl⟩ := trace_cons.1 h
    rw [List.forall_mem_cons] at hstep
    exact (ih hstep.2 hr').trans (hstep.1 s t ht)

theorem Inv.withDraw {s : State} (h : Inv s) (d : Draw) : Inv (s.withDraw d) := h.hostFields d _ _ _

/-- Over a run without a reset the queue's equation adds up. -/
theorem Inv.trace_queue {cs : List (Instr × Draw)} {s : State} {r : Trace} (h : Inv s)
    (hcs : ∀ c ∈ cs, c.1 ≠ .reset ∧ c.1.wellFormed s.params = true) (hr : trace cs s = some r) :
    r.popped ++ contents r.final = contents s ++ r.pushed := by
  induction cs generalizing s r with
  | nil =>
    cases hr
    exact (List.append_nil _).symm
  | cons c cs ih =>
    obtain ⟨t, r', ht, hr', rfl⟩ := trace_cons.1 hr
    obtain ⟨⟨hne, hwf⟩, hcs⟩ := List.forall_mem_cons.1 hcs
    have hp : t.params = s.params := exec_params (s := s.withDraw c.2) ht
    have hhead := (h.withDraw c.2).exec_queue hne ht
    have htail := ih ((h.withDraw c.2).of_exec hwf ht) (hp ▸ hcs) hr'
    rw [contents_withDraw] at hhead
    show (poppedBy c.1 t ++ r'.popped) ++ contents r'.final = contents s ++ (pushedBy c.1 t ++ r'.pushed)
    rw [List.append_assoc, htail, ← List.append_assoc, hhead, List.append_assoc]

/-- Settles O45: from an empty buffer what was popped is a beginning of what was pushed. -/
theorem framesLeaveInPushOrder : Obligations.FramesLeaveInPushOrder := by
  intro cs s r h _ hcs hr
  have hqueue := h.trace_queue hcs hr
  refine ⟨hqueue, fun hempty k hk => ?_⟩
  rw [hempty, List.nil_append] at hqueue
  rw [← hqueue, List.getElem?_append_left hk]

/-! ### The source's buffer -/

section
variable {s t : State} (h : Inv s) (hl : s.live = true) (hq : Quiescent s)
include h hl hq

theorem push_eq_sourcePush {id : Nat} {v : Payload} {len : Len} (ht : exec (.push id v len) s = .next t) :
    (contents t, t.wrAck) = sourcePush (contents s) (Slot.mk id v) := by
  obtain ⟨hcount, -⟩ := (h.block hl).counts_of_quiescent hq
  have hqueue : contents t = contents s ++ if t.wrAck then [Slot.mk id v] else [] :=
    h.exec_queue (i := .push id v len) nofun ht
  have hlen : (contents s).length = 8 ↔ wrFull s = true := by
    rw [contents_length, wrFull_iff, hcount]
    exact BitVec.toNat_inj (y := 8)
  rw [sourcePush, hqueue]
  cases hack : t.wrAck with
  | false => rw [if_pos (hlen.2 ((exec_push_wrAck_false_iff ht).1 hack)), if_neg nofun, List.append_nil]
  | true =>
    have hf : ¬ wrFull s = true := fun hf => by cases hack.symm.trans ((exec_push_wrAck_false_iff ht).2 hf)
    rw [if_neg (mt hlen.1 hf), if_pos rfl]

theorem pop_eq_sourcePop (ht : exec .pop s = .next t) :
    (contents t, Slot.mk t.rdFid t.rdFpay, t.rdValid) = sourcePop (contents s) := by
  obtain ⟨-, hcount⟩ := (h.block hl).counts_of_quiescent hq
  have hqueue : (if t.rdValid then [Slot.mk t.rdFid t.rdFpay] else []) ++ contents t = contents s :=
    (h.exec_queue (i := .pop) nofun ht).trans (List.append_nil _)
  rw [← hqueue]
  cases hv : t.rdValid with
  | true => rfl
  | false =>
    have he := (exec_pop_rdValid_false_iff ht).1 hv
    have hempty : contents s = [] := (contents_eq_nil_iff s).2 (hcount ▸ (rdEmpty_iff s).1 he)
    have hleft : contents t = [] := by
      rw [hv, hempty] at hqueue
      exact hqueue
    have hres := exec_pop_eq_of_empty he ht
    rw [hleft, congrArg State.rdFid hres, congrArg State.rdFpay hres]
    rfl

end

/-- Settles O47: in a quiescent state the flags are those of the queue itself. -/
theorem quiescentBlockIsTheSourceBuffer : Obligations.QuiescentBlockIsTheSourceBuffer :=
  fun _ _ h hl hq => ⟨fun _ _ _ => push_eq_sourcePush h hl hq, pop_eq_sourcePop h hl hq⟩

end Sys2Proof.Machine
end

