-- ==== Sys2Proof/Proofs/Views.lean ====
section
/-!
PROOFS. What a domain's view depends on: no command of the other domain changes it (41_gray_counter_cdc.md R131), and
neither agent's outcome depends on the order of two simultaneous steps (60_exceptions.md R206).
-/

namespace Sys2Proof.Machine

/-! ### Commands of the other domain -/

theorem exec_keeps_write_regs {i : Instr} {s t : State} (hi : isWriteCommand i = false) (hne : i ≠ .reset)
    (h : exec i s = .next t) : WriteRegsSame s t := by
  obtain hi' | hw | hr | ⟨o, d, ho⟩ := command_cases i
  · exact absurd hi' hne
  · cases hi.symm.trans hw
  · exact (exec_read_frame hr h).1
  · obtain ⟨-, hw, -⟩ := exec_observation_frame ho h
    exact hw

theorem exec_keeps_read_regs {i : Instr} {s t : State} (hi : isReadCommand i = false) (hne : i ≠ .reset)
    (h : exec i s = .next t) : ReadRegsSame s t := by
  obtain hi' | hw | hr | ⟨o, d, ho⟩ := command_cases i
  · exact absurd hi' hne
  · exact (exec_write_frame hw h).1
  · cases hi.symm.trans hr
  · obtain ⟨-, -, hr, -⟩ := exec_observation_frame ho h
    exact hr

theorem exec_keeps_wrCount {i : Instr} {s t : State} (hi : isWriteCommand i = false) (hne : i ≠ .reset)
    (h : exec i s = .next t) : wrCount t = wrCount s := by
  obtain ⟨hb, -, hq, -⟩ := exec_keeps_write_regs hi hne h
  exact wrCount_congr (exec_params h) hq hb

theorem exec_keeps_rdCount {i : Instr} {s t : State} (hi : isReadCommand i = false) (hne : i ≠ .reset)
    (h : exec i s = .next t) : rdCount t = rdCount s := by
  obtain ⟨hb, -, hq, -⟩ := exec_keeps_read_regs hi hne h
  exact rdCount_congr (exec_params h) hq hb

/-! ### The own domain's advance, push and pop -/

section
variable {s t : State} (h : Inv s) (hl : s.live = true)
include h hl

theorem exec_wrNop_wrCount_le (ht : exec .wrNop s = .next t) : (wrCount t).toNat ≤ (wrCount s).toNat := by
  have hb := h.block hl
  have hb' := (h.of_exec rfl ht).block (exec_live ht)
  obtain ⟨-, g, hg, rfl⟩ := exec_wrNop_next.1 ht
  rw [hb.wrCount_toNat, hb'.wrCount_toNat]
  exact Nat.add_le_add_right (chainDist_shiftIn_le _ hb.wq_ne_nil (hb.rgray ▸ hg)) _

theorem exec_rdNop_le_rdCount (ht : exec .rdNop s = .next t) : (rdCount s).toNat ≤ (rdCount t).toNat := by
  have hb := h.block hl
  have hocc := hb.occ_toNat
  have hocc' := ((h.of_exec rfl ht).block (exec_live ht)).occ_toNat
  obtain ⟨-, g, hg, rfl⟩ := exec_rdNop_next.1 ht
  have hchain := chainDist_shiftIn_le s.params.syncStages hb.rq_ne_nil (hb.wgray ▸ hg)
  rw [State.setRq_rq, State.setRq_wbin] at hocc'
  change (occ s).toNat = _ at hocc'
  omega

omit hl in
/-- Beside the advance, which WR_NOP makes alone, an accepted push moves the write pointer one position on. -/
theorem exec_push_wrCount {n : State} {id : Nat} {v : Payload} {len : Len} (hn : exec .wrNop s = .next n)
    (ht : exec (.push id v len) s = .next t) :
    (wrCount t).toNat = (wrCount n).toNat + if t.wrAck then 1 else 0 := by
  obtain ⟨-, -, hbound⟩ := ((h.of_exec rfl hn).block (exec_live hn)).counts_bound
  obtain ⟨-, g, hg, rfl⟩ := exec_wrNop_next.1 hn
  obtain ⟨-, g', hg', rfl⟩ := (exec_write_next rfl).1 ht
  obtain rfl : g = g' := Option.some.inj (hg.symm.trans hg')
  obtain he | ⟨id, v, len, -, -, he⟩ := writeEffect_cases (.push id v len) s <;> rw [he]
  · rfl
  · have hmove := ptrDist_add_one_right (Nat.lt_of_le_of_lt hbound (by decide))
    rw [← nextPtr_eq_add_one] at hmove
    exact hmove

/-- Beside the advance, which RD_NOP makes alone, a successful pop moves the read pointer one position on. -/
theorem exec_pop_rdCount {n : State} (hn : exec .rdNop s = .next n) (ht : exec .pop s = .next t) :
    (rdCount t).toNat + (if t.rdValid then 1 else 0) = (rdCount n).toNat := by
  have hle := exec_rdNop_le_rdCount h hl hn
  obtain ⟨-, g, hg, rfl⟩ := exec_rdNop_next.1 hn
  obtain ⟨-, g', hg', rfl⟩ := (exec_read_next rfl).1 ht
  obtain rfl : g = g' := Option.some.inj (hg.symm.trans hg')
  obtain ⟨hne, -⟩ | ⟨-, -, he⟩ | ⟨-, hempty, he⟩ := readEffect_cases .pop s
  · exact absurd rfl hne
  · rw [he]
    rfl
  · rw [he]
    have hpos : 0 < (rdCount s).toNat :=
      Nat.pos_of_ne_zero fun h0 => (rdEmpty_false_iff s).1 hempty (BitVec.eq_of_toNat_eq h0)
    have hmove := ptrDist_add_one_left (Nat.lt_of_lt_of_le hpos hle)
    rw [← nextPtr_eq_add_one] at hmove
    exact hmove

end

/-- Settles O42: over a run by each command's frame, and the two counts by the lag and the pointer they are made of. -/
theorem favourableViewsAreStable : Obligations.FavourableViewsAreStable := by
  refine ⟨fun cs s r hcs hr => ?_, fun cs s r hcs hr => ?_, fun s t => exec_wrNop_wrCount_le,
    fun s t => exec_rdNop_le_rdCount, fun _ _ _ _ _ _ h _ => exec_push_wrCount h,
    fun _ _ _ h hl => exec_pop_rdCount h hl⟩
  · have hcount : wrCount r.final = wrCount s :=
      trace_final_eq wrCount (fun c hc u v => exec_keeps_wrCount (s := u.withDraw c.2) (hcs c hc).1 (hcs c hc).2) hr
    exact ⟨hcount, by rw [wrFull, wrFull, hcount]⟩
  · have hcount : rdCount r.final = rdCount s :=
      trace_final_eq rdCount (fun c hc u v => exec_keeps_rdCount (s := u.withDraw c.2) (hcs c hc).1 (hcs c hc).2) hr
    exact ⟨hcount, by rw [rdEmpty, rdEmpty, hcount]⟩

/-! ### Two simultaneous steps -/

section
variable {s s' : State} (hp : s'.params = s.params)
include hp

theorem writeEffect_congr (i : Instr) (hw : WriteRegsSame s s') (hm : s'.mem = s.mem) :
    WriteRegsSame (writeEffect i s) (writeEffect i s') ∧ (writeEffect i s').mem = (writeEffect i s).mem := by
  obtain ⟨hb, hg, hq, -⟩ := hw
  have hf : wrFull s' = wrFull s := by simp only [wrFull, wrCount_congr hp hq hb]
  cases i with
  | push id v len =>
    simp only [writeEffect, hf]
    cases wrFull s <;> simp [WriteRegsSame, State.accept, hb, hg, hq, hm]
  | _ => exact ⟨⟨hb, hg, hq, rfl⟩, hm⟩

/-- A read command's effect reads its own domain and, of the slots, the oldest live frame's alone. -/
theorem readEffect_congr (i : Instr) (hr : ReadRegsSame s s')
    (hm : rdEmpty s = false → memRead s' (liveSlot (ptrIdx s.rbin)) = memRead s (liveSlot (ptrIdx s.rbin))) :
    ReadRegsSame (readEffect i s) (readEffect i s') := by
  have hregs := hr
  obtain ⟨hb, hg, hq, -⟩ := hr
  have he : rdEmpty s' = rdEmpty s := by simp only [rdEmpty, rdCount_congr hp hq hb]
  cases i with
  | pop =>
    simp only [readEffect, he]
    cases hempty : rdEmpty s <;> simp [ReadRegsSame, State.popFront, hb, hg, hq, hm, hempty]
  | _ => exact hregs

end

/-- What a write command leaves of its own doing: the write domain and the slots, but for the first stage. -/
def writeOutcome (s : State) : Ptr × Ptr × Bool × Memory × List Ptr := (s.wbin, s.wgray, s.wrAck, s.mem, s.wq.tail)

/-- What a read command leaves of its own doing: the read domain, but for the first stage. -/
def readOutcome (s : State) : Ptr × Ptr × Nat × Payload × Bool × List Ptr :=
  (s.rbin, s.rgray, s.rdFid, s.rdFpay, s.rdValid, s.rq.tail)

/-- Two runs of a write command from states with one write domain and one set of slots, whatever the draws and the other
domain: they may differ in the first stage alone. -/
theorem exec_writeOutcome_congr {i : Instr} {s s' t t' : State} (hi : isWriteCommand i = true)
    (hp : s'.params = s.params) (hw : WriteRegsSame s s') (hm : s'.mem = s.mem) (h : exec i s = .next t)
    (h' : exec i s' = .next t') : writeOutcome t' = writeOutcome t := by
  obtain ⟨-, g, -, rfl⟩ := (exec_write_next hi).1 h
  obtain ⟨-, g', -, rfl⟩ := (exec_write_next hi).1 h'
  obtain ⟨⟨hb, hg, -, hack⟩, hmem⟩ := writeEffect_congr hp i hw hm
  obtain ⟨-, -, hq, -⟩ := hw
  simp [writeOutcome, shiftIn, hb, hg, hack, hmem, hq, hp]

/-- Two runs of a read command from states with one read domain and one oldest live frame, whatever the draws and the
other domain: they may differ in the first stage alone. -/
theorem exec_readOutcome_congr {i : Instr} {s s' t t' : State} (hi : isReadCommand i = true)
    (hp : s'.params = s.params) (hr : ReadRegsSame s s')
    (hm : rdEmpty s = false → memRead s' (liveSlot (ptrIdx s.rbin)) = memRead s (liveSlot (ptrIdx s.rbin)))
    (h : exec i s = .next t) (h' : exec i s' = .next t') : readOutcome t' = readOutcome t := by
  obtain ⟨-, g, -, rfl⟩ := (exec_read_next hi).1 h
  obtain ⟨-, g', -, rfl⟩ := (exec_read_next hi).1 h'
  obtain ⟨hb, hg, -, hid, hpay, hv⟩ := readEffect_congr hp i hr hm
  obtain ⟨-, -, hq, -⟩ := hr
  simp [readOutcome, shiftIn, hb, hg, hid, hpay, hv, hq, hp]

/-- A read step leaves the slots' list as it is. -/
theorem exec_read_mem {i : Instr} {s t : State} (hi : isReadCommand i = true) (h : exec i s = .next t) :
    t.mem = s.mem := by
  obtain ⟨q, rfl | rfl | ⟨-, -, rfl⟩⟩ := exec_read_cases hi h <;> rfl

theorem exec_read_keeps_writeOutcome {i : Instr} {s t : State} (hi : isReadCommand i = true) (h : exec i s = .next t) :
    writeOutcome t = writeOutcome s := by
  obtain ⟨⟨hb, hg, hq, hack⟩, -⟩ := exec_read_frame hi h
  rw [writeOutcome, writeOutcome, hb, hg, hq, hack, exec_read_mem hi h]

theorem exec_write_keeps_readOutcome {i : Instr} {s t : State} (hi : isWriteCommand i = true) (h : exec i s = .next t) :
    readOutcome t = readOutcome s := by
  obtain ⟨⟨hb, hg, hq, hid, hpay, hv⟩, -⟩ := exec_write_frame hi h
  rw [readOutcome, readOutcome, hb, hg, hq, hid, hpay, hv]

/-- A write step leaves the oldest live frame's slot as it is (10_state.md R47). -/
theorem BlockInv.exec_write_keeps_front {i : Instr} {s t : State} (hb : BlockInv s) (hi : isWriteCommand i = true)
    (he : rdEmpty s = false) (h : exec i s = .next t) :
    memRead t (liveSlot (ptrIdx s.rbin)) = memRead s (liveSlot (ptrIdx s.rbin)) := by
  obtain ⟨-, g, -, rfl⟩ := (exec_write_next hi).1 h
  obtain hk | ⟨id, v, len, -, hf, hk⟩ := writeEffect_cases i s <;> rw [hk]
  · rfl
  · have hfront := hb.memRead_accept hf (Slot.mk id v) (Nat.zero_lt_of_lt (hb.frame_of_not_empty he))
    rwa [BitVec.add_zero] at hfront

/-- With two stages or more the view is not the first stage, so it is read off the tail. -/
theorem stage_of_tail {n : Nat} (hn : 2 ≤ n) (q : List Ptr) : stage n q = q.tail.getD (n - 2) 0 := by
  obtain ⟨m, rfl⟩ := Nat.exists_eq_add_of_le' hn
  cases q <;> rfl

theorem BlockInv.two_le_syncStages {s : State} (h : BlockInv s) : 2 ≤ s.params.syncStages := by
  have hv := h.valid
  simp only [State.validParams, Params.inRange, Bool.and_eq_true, decide_eq_true_eq] at hv
  exact hv.2.2

/-- Settles O46: each agent's step starts from its own domain as it was, in both orders. -/
theorem simultaneousOutcomesAgree : Obligations.SimultaneousOutcomesAgree := by
  intro iw ir dw dr s a b t t' h hl hiw hir ha ht hb ht'
  have hblock := h.block hl
  obtain ⟨hread, -⟩ := exec_write_frame hiw ha
  obtain ⟨hwrite, -⟩ := exec_read_frame hir hb
  have hpa : a.params = s.params := exec_params (s := s.withDraw dw) ha
  have hpb : b.params = s.params := exec_params (s := s.withDraw dr) hb
  have hpt : t.params = s.params := (exec_params ht).trans hpa
  have hpt' : t'.params = s.params := (exec_params ht').trans hpb
  have hmem : b.mem = s.mem := exec_read_mem (s := s.withDraw dr) hir hb
  have hfront (he : rdEmpty s = false) :
      memRead a (liveSlot (ptrIdx s.rbin)) = memRead s (liveSlot (ptrIdx s.rbin)) :=
    BlockInv.exec_write_keeps_front (s := s.withDraw dw) ((h.withDraw dw).block hl) hiw he ha
  have hW : writeOutcome t = writeOutcome t' :=
    (exec_read_keeps_writeOutcome (s := a.withDraw dr) hir ht).trans
      (exec_writeOutcome_congr (s := s.withDraw dw) (s' := b.withDraw dw) hiw hpb hwrite hmem ha ht').symm
  have hR : readOutcome t = readOutcome t' :=
    (exec_readOutcome_congr (s := s.withDraw dr) (s' := a.withDraw dr) hir hpa hread hfront hb ht).trans
      (exec_write_keeps_readOutcome (s := b.withDraw dw) hiw ht').symm
  simp only [writeOutcome, readOutcome, Prod.mk.injEq] at hW hR
  obtain ⟨hwb, hwg, hack, hm, hwq⟩ := hW
  obtain ⟨hrb, hrg, hid, hpay, hv, hrq⟩ := hR
  have hn := hblock.two_le_syncStages
  refine ⟨hwb, hwg, hack, hrb, hrg, hid, hpay, hv, hm, hwq, hrq, ?_, ?_⟩
  · rw [wrCount, wrCount, hpt, hpt', stage_of_tail hn, stage_of_tail hn, hwb, hwq]
  · rw [rdCount, rdCount, hpt, hpt', stage_of_tail hn, stage_of_tail hn, hrb, hrq]

end Sys2Proof.Machine
end

