-- ==== Sys2Proof/Proofs/Runs.lean ====
section
/-!
PROOFS. Runs: a command does not read the events that wait, so a run goes on from where its beginning led, and a run of
commands is the run of the steps that present them (30_encoding.md R89).
-/

namespace Sys2Proof.Machine

/-! ### The events that wait -/

section
variable (s : State) (es : List HostEvent) (i : Instr)

theorem writeEffect_withPending : writeEffect i (s.withPending es) = (writeEffect i s).withPending es := by
  cases i with
  | push id v len =>
    show (if wrFull s then _ else _) = (if wrFull s then _ else _ : State).withPending es
    cases wrFull s <;> rfl
  | _ => rfl

theorem readEffect_withPending : readEffect i (s.withPending es) = (readEffect i s).withPending es := by
  cases i with
  | pop =>
    show (if rdEmpty s then _ else _) = (if rdEmpty s then _ else _ : State).withPending es
    cases rdEmpty s <;> rfl
  | _ => rfl

theorem outputValue_withPending (o : Output) : outputValue (s.withPending es) o = outputValue s o := by
  cases o <;> rfl

end

/-- A command neither reads the events that wait nor changes them (10_state.md R24). -/
theorem exec_withPending {i : Instr} {s t : State} (es : List HostEvent) (h : exec i s = .next t) :
    exec i (s.withPending es) = .next (t.withPending es) := by
  obtain rfl | hi | hi | ⟨o, d, hi⟩ := command_cases i
  · obtain ⟨hv, rfl⟩ := exec_reset_next.1 h
    exact exec_reset_next.2 ⟨hv, rfl⟩
  · obtain ⟨hr, g, hg, rfl⟩ := (exec_write_next hi).1 h
    exact (exec_write_next hi).2 ⟨hr, g, hg, by rw [writeEffect_withPending]; rfl⟩
  · obtain ⟨hr, g, hg, rfl⟩ := (exec_read_next hi).1 h
    exact (exec_read_next hi).2 ⟨hr, g, hg, by rw [readEffect_withPending]; rfl⟩
  · rw [exec_observation hi] at h ⊢
    obtain ⟨hr, hd, rfl⟩ := observe_next.1 h
    exact observe_next.2 ⟨hr, hd, by rw [outputValue_withPending]; rfl⟩

theorem exec_pending {i : Instr} {s t : State} (h : exec i s = .next t) : t.pending = s.pending := by
  have hkeep := exec_withPending s.pending h
  have hsame : t = t.withPending s.pending := Host.Outcome.next.inj (h.symm.trans hkeep)
  rw [hsame, State.withPending_pending]

theorem State.withPending_of_eq {s : State} {es : List HostEvent} (h : s.pending = es) : s.withPending es = s := by
  subst h
  rfl

/-- A step takes the first event, and does not read those behind it. -/
theorem step_withPending {s t : State} {e : HostEvent} {es : List HostEvent}
    (h : step (s.withPending (e :: es)) = .next t) (es' : List HostEvent) :
    t.pending = es ∧ step (s.withPending (e :: es')) = .next (t.withPending es') := by
  cases e with
  | powerOn =>
    cases h
    exact ⟨rfl, rfl⟩
  | sample smp d =>
    cases hd : decode s.params smp with
    | instr i =>
      rw [step_of_decode (s := s.withPending _) rfl hd] at h ⊢
      exact ⟨exec_pending h, exec_withPending es' h⟩
    | nothing =>
      rw [step, fetch] at h ⊢
      simp only [State.withPending_pending, State.withPending_params, hd, Host.Outcome.next.injEq] at h ⊢
      subst h
      exact ⟨rfl, rfl⟩
    | unknownInput =>
      rw [step_of_unknownInput (s := s.withPending _) rfl hd] at h
      cases h

/-! ### Beginnings of runs -/

theorem runSteps_succ_eq_next {n : Nat} {s t : State} :
    runSteps (n + 1) s = .next t ↔ ∃ u, step s = .next u ∧ runSteps n u = .next t := by
  rw [runSteps]
  cases step s <;> simp

theorem runSteps_add {a : Nat} {s u : State} (h : runSteps a s = .next u) (b : Nat) :
    runSteps (a + b) s = runSteps b u := by
  induction a generalizing s with
  | zero =>
    cases h
    rw [Nat.zero_add]
  | succ a ih =>
    obtain ⟨v, hv, h⟩ := runSteps_succ_eq_next.1 h
    rw [Nat.succ_add, runSteps_succ hv, ih h]

theorem exists_runSteps_of_le {m n : Nat} {s t : State} (hmn : m ≤ n) (h : runSteps n s = .next t) :
    ∃ u, runSteps m s = .next u := by
  induction m generalizing n s with
  | zero => exact ⟨s, rfl⟩
  | succ m ih =>
    obtain ⟨n, rfl⟩ := Nat.exists_eq_add_of_le' (Nat.le_trans (Nat.le_add_left 1 m) hmn)
    obtain ⟨v, hv, h⟩ := runSteps_succ_eq_next.1 h
    rw [runSteps_succ hv]
    exact ih (Nat.le_of_succ_le_succ hmn) h

/-- A run through the first events is the same whatever waits behind them. -/
theorem runSteps_withPending {es tail : List HostEvent} {s u : State}
    (h : runSteps es.length (s.withPending (es ++ tail)) = .next u) (tail' : List HostEvent) :
    runSteps es.length (s.withPending (es ++ tail')) = .next (u.withPending tail') := by
  induction es generalizing s with
  | nil =>
    cases h
    rfl
  | cons e es ih =>
    obtain ⟨t, ht, h⟩ := runSteps_succ_eq_next.1 h
    obtain ⟨(hp : t.pending = es ++ tail), ht'⟩ := step_withPending ht (es ++ tail')
    exact runSteps_succ_eq_next.2 ⟨_, ht', ih (by rwa [State.withPending_of_eq hp])⟩

/-- A run goes on from where its first events led. -/
theorem runSteps_append {es : List HostEvent} {s u : State} (h : runSteps es.length (s.withPending es) = .next u)
    (n : Nat) (tail : List HostEvent) :
    runSteps (es.length + n) (s.withPending (es ++ tail)) = runSteps n (u.withPending tail) :=
  runSteps_add (runSteps_withPending (tail := []) (by rwa [List.append_nil]) tail) n

theorem step_params {s t : State} (h : step s = .next t) : t.params = s.params := by
  obtain ⟨i, es, d, -, ht⟩ | rfl | ⟨es, rfl⟩ | ⟨es, rfl⟩ := step_cases h
  · exact exec_params (s := s.taken es d) ht
  · rfl
  · rfl
  · rfl

/-- Every run keeps the parameters and the invariant. -/
theorem Inv.of_runSteps {n : Nat} {s t : State} (h : Inv s) (ht : runSteps n s = .next t) :
    t.params = s.params ∧ Inv t := by
  induction n generalizing s with
  | zero =>
    cases ht
    exact ⟨rfl, h⟩
  | succ n ih =>
    obtain ⟨u, hu, ht⟩ := runSteps_succ_eq_next.1 ht
    obtain ⟨hp, hi⟩ := ih (stepKeepsTheInvariant s u h hu) ht
    exact ⟨hp.trans (step_params hu), hi⟩

/-! ### Runs of commands -/

/-- The events that present a list of commands, each with its draw. -/
def commandEvents (p : Params) (cs : List (Instr × Draw)) : List HostEvent :=
  cs.map fun c => .sample (encode p c.1) c.2

/-- A step on the event that presents a command runs the command. -/
theorem step_commandEvent {i : Instr} {s : State} (hi : i.wellFormed s.params = true) (d : Draw) (es : List HostEvent) :
    step (s.withPending (.sample (encode s.params i) d :: es)) = exec i ((s.withPending es).withDraw d) :=
  step_of_decode (s := s.withPending _) rfl (decodeOfEncode s.params i hi)

/-- A run of commands is the run of the steps that present them. -/
theorem runSteps_of_trace {cs : List (Instr × Draw)} {s : State} {r : Trace} (es : List HostEvent)
    (hcs : ∀ c ∈ cs, c.1.wellFormed s.params = true) (h : trace cs (s.withPending es) = some r) :
    runSteps cs.length (s.withPending (commandEvents s.params cs ++ es)) = .next r.final := by
  induction cs generalizing s r with
  | nil =>
    cases h
    rfl
  | cons c cs ih =>
    obtain ⟨t, r', ht, hr', rfl⟩ := trace_cons.1 h
    obtain ⟨hc, hcs⟩ := List.forall_mem_cons.1 hcs
    have hp : t.params = s.params := exec_params (s := (s.withPending es).withDraw c.2) ht
    have hpend : t.pending = es := exec_pending ht
    have htail : trace cs (t.withPending es) = some r' := by rwa [State.withPending_of_eq hpend]
    refine runSteps_succ_eq_next.2 ⟨t.withPending (commandEvents s.params cs ++ es), ?_, ?_⟩
    · exact (step_commandEvent hc c.2 _).trans (exec_withPending _ ht)
    · have hrun := ih (hp ▸ hcs) htail
      rwa [hp] at hrun

theorem trace_append {cs cs' : List (Instr × Draw)} {s : State} {r : Trace} :
    trace (cs ++ cs') s = some r ↔ ∃ r₁ r₂, trace cs s = some r₁ ∧ trace cs' r₁.final = some r₂ ∧
      r = Trace.mk (r₁.pushed ++ r₂.pushed) (r₁.popped ++ r₂.popped) r₂.final := by
  induction cs generalizing s r with
  | nil =>
    constructor
    · exact fun h => ⟨_, r, rfl, h, rfl⟩
    · rintro ⟨_, r₂, hr₁, hr₂, rfl⟩
      cases hr₁
      exact hr₂
  | cons c cs ih =>
    constructor
    · intro h
      obtain ⟨t, r', ht, hr', rfl⟩ := trace_cons.1 h
      obtain ⟨r₁, r₂, hr₁, hr₂, rfl⟩ := ih.1 hr'
      exact ⟨_, r₂, trace_cons.2 ⟨t, r₁, ht, hr₁, rfl⟩, hr₂, by simp only [List.append_assoc]⟩
    · rintro ⟨_, r₂, h, hr₂, rfl⟩
      obtain ⟨t, r₁, ht, hr₁, rfl⟩ := trace_cons.1 h
      exact trace_cons.2 ⟨t, _, ht, ih.2 ⟨r₁, r₂, hr₁, hr₂, rfl⟩, by simp only [List.append_assoc]⟩

theorem trace_singleton {i : Instr} {d : Draw} {s : State} {r : Trace} :
    trace [(i, d)] s = some r ↔
      ∃ t, exec i (s.withDraw d) = .next t ∧ r = Trace.mk (pushedBy i t) (poppedBy i t) t := by
  rw [trace_cons]
  constructor
  · rintro ⟨t, r', ht, hr', rfl⟩
    cases hr'
    exact ⟨t, ht, by simp only [List.append_nil]⟩
  · rintro ⟨t, ht, rfl⟩
    exact ⟨t, _, ht, rfl, by simp only [List.append_nil]⟩

end Sys2Proof.Machine
end

