-- ==== Sys2Proof/Proofs/Settling.lean ====
section
/-!
PROOFS. Idle edges: they move nothing but a synchronizer, which fills from its first stage with the source's value
(41_gray_counter_cdc.md R123), while its last stages still hold what they held. Hence SETTLE (30_encoding.md R93).
-/

namespace Sys2Proof.Machine

/-! ### The two synchronizers, named by their domain -/

/-- A domain's synchronizer (10_state.md R34). -/
def syncOf : Domain → State → List Ptr
  | .write, s => s.wq
  | .read, s => s.rq

/-- The Gray pointer a domain's synchronizer samples. -/
def sourceOf : Domain → State → Ptr
  | .write, s => s.rgray
  | .read, s => s.wgray

/-- The command of an edge of a domain's clock with nothing enabled (42_write_port.md R145, 43_read_port.md R165). -/
def idleCommand : Domain → Instr
  | .write => .wrNop
  | .read => .rdNop

/-- The state but for what idle edges change: the synchronizers, `wr_ack` and the host's side. -/
def State.steady (s : State) : State := { s with wq := [], rq := [], wrAck := false, draw := .now, pending := [] }

section
variable {s t : State} (h : t.steady = s.steady)
include h

theorem params_of_steady : t.params = s.params := (congrArg State.params h :)

theorem live_of_steady (hl : s.live = true) : t.live = true := (congrArg State.live h :).trans hl

theorem ready_of_steady (hr : s.ready = true) : t.ready = true := (congrArg State.ready h :).trans hr

theorem sourceOf_of_steady (port : Domain) : sourceOf port t = sourceOf port s := by
  cases port with
  | write => exact (congrArg State.rgray h :)
  | read => exact (congrArg State.wgray h :)

theorem pointers_of_steady : t.wbin = s.wbin ∧ t.rbin = s.rbin :=
  ⟨(congrArg State.wbin h :), (congrArg State.rbin h :)⟩

theorem result_of_steady : t.rdFid = s.rdFid ∧ t.rdFpay = s.rdFpay ∧ t.rdValid = s.rdValid :=
  ⟨(congrArg State.rdFid h :), (congrArg State.rdFpay h :), (congrArg State.rdValid h :)⟩

theorem occ_of_steady : occ t = occ s := (congrArg occ h :)

theorem contents_of_steady : contents t = contents s := (congrArg contents h :)

end

/-! ### One idle edge -/

/-- What an idle edge of one domain's clock does. -/
structure IdleStep (port : Domain) (d : Draw) (s t : State) : Prop where
  steady : t.steady = s.steady
  inv : Inv s → Inv t
  other : ∀ p, p ≠ port → syncOf p t = syncOf p s
  own : ∃ g, sampled d (firstStage (syncOf port s)) (sourceOf port s) = some g ∧
    syncOf port t = shiftIn s.params.syncStages g (syncOf port s)

theorem idleStep_of_exec {port : Domain} {d : Draw} {s t : State}
    (h : exec (idleCommand port) (s.withDraw d) = .next t) : IdleStep port d s t := by
  cases port with
  | write =>
    obtain ⟨-, g, hg, rfl⟩ := exec_wrNop_next.1 h
    refine ⟨rfl, fun hi => (hi.withDraw d).of_exec rfl h, fun p hp => ?_, g, hg, rfl⟩
    cases p with
    | write => exact absurd rfl hp
    | read => rfl
  | read =>
    obtain ⟨-, g, hg, rfl⟩ := exec_rdNop_next.1 h
    refine ⟨rfl, fun hi => (hi.withDraw d).of_exec rfl h, fun p hp => ?_, g, hg, rfl⟩
    cases p with
    | write => rfl
    | read => exact absurd rfl hp

/-- A prompt idle edge completes in every block that has been reset. -/
theorem exists_idle_prompt (port : Domain) {s : State} (hr : s.ready = true) :
    ∃ t, exec (idleCommand port) (s.withDraw .now) = .next t := by
  cases port with
  | write => exact ⟨_, exec_wrNop_next.2 ⟨hr, _, sampled_now _ _, rfl⟩⟩
  | read => exact ⟨_, exec_rdNop_next.2 ⟨hr, _, sampled_now _ _, rfl⟩⟩

/-- The window of a stage that holds the source's value holds that value alone (41_gray_counter_cdc.md R123). -/
theorem sampled_of_settled {d : Draw} {src g : Ptr} (h : sampled d src src = some g) : g = src := by
  have hle := of_decide_eq_true (sampled_inWindow h)
  rw [ptrDist_self] at hle
  have hbin := ptrDist_eq_zero_iff.1 (BitVec.le_zero_iff.1 hle)
  rw [← bin2gray_gray2bin g, ← hbin, bin2gray_gray2bin]

/-- The first `k` stages of a domain's synchronizer hold the source's present value. -/
def Settled (k : Nat) (port : Domain) (s : State) : Prop := ∀ g ∈ (syncOf port s).take k, g = sourceOf port s

theorem Settled.zero (port : Domain) (s : State) : Settled 0 port s := by simp [Settled]

theorem Settled.mono {k l : Nat} {port : Domain} {s : State} (h : Settled l port s) (hkl : k ≤ l) : Settled k port s :=
  fun g hg => h g (List.take_subset_take_left _ hkl hg)

/-- An edge whose sample is the source's value settles one stage more. -/
theorem Settled.of_sample {k : Nat} {port : Domain} {d : Draw} {s t : State} (h : Settled k port s)
    (hst : IdleStep port d s t)
    (hd : sampled d (firstStage (syncOf port s)) (sourceOf port s) = some (sourceOf port s)) :
    Settled (k + 1) port t := by
  obtain ⟨g, hg, hq⟩ := hst.own
  obtain rfl : sourceOf port s = g := Option.some.inj (hd.symm.trans hg)
  intro g' hg'
  rw [sourceOf_of_steady hst.steady]
  rw [hq, shiftIn, List.take_succ_cons, List.take_take] at hg'
  obtain rfl | hg' := List.mem_cons.1 hg'
  · rfl
  · exact h g' (List.take_subset_take_left _ (Nat.min_le_left _ _) hg')

/-- Once the first stage holds the source's value, every draw of its own clock samples that value. -/
theorem Settled.sampled {k : Nat} {port : Domain} {d : Draw} {s t : State} (h : Settled (k + 1) port s)
    (hne : syncOf port s ≠ []) (hst : IdleStep port d s t) :
    sampled d (firstStage (syncOf port s)) (sourceOf port s) = some (sourceOf port s) := by
  obtain ⟨f, q, hq⟩ := List.exists_cons_of_ne_nil hne
  obtain ⟨g, hg, -⟩ := hst.own
  have hfirst : firstStage (syncOf port s) = sourceOf port s :=
    h _ (by rw [hq]; exact List.mem_cons_self)
  rw [hfirst] at hg ⊢
  rw [hg, sampled_of_settled hg]

theorem Inv.syncOf_length {s : State} (h : Inv s) (hl : s.live = true) (port : Domain) :
    (syncOf port s).length = s.params.syncStages := by
  cases port with
  | write => exact (h.block hl).wqLen
  | read => exact (h.block hl).rqLen

theorem Inv.syncOf_ne_nil {s : State} (h : Inv s) (hl : s.live = true) (port : Domain) : syncOf port s ≠ [] :=
  List.ne_nil_of_length_pos (h.syncOf_length hl port ▸ (h.block hl).syncStages_pos)

/-- No idle edge of either clock unsettles a stage. -/
theorem Settled.of_step {k : Nat} {p port : Domain} {d : Draw} {s t : State} (h : Settled k p s) (hi : Inv s)
    (hl : s.live = true) (hst : IdleStep port d s t) : Settled k p t := by
  by_cases hp : p = port
  · subst hp
    cases k with
    | zero => exact .zero p t
    | succ k => exact (h.of_sample hst (h.sampled (hi.syncOf_ne_nil hl p) hst)).mono (Nat.le_succ _)
  · intro g hg
    rw [hst.other p hp] at hg
    rw [sourceOf_of_steady hst.steady, h g hg]

/-- A block whose synchronizers are settled through their last stage is quiescent (70_reset_and_hazards.md R236). -/
theorem Inv.quiescent_of_settled {s : State} (h : Inv s) (hl : s.live = true)
    (hset : ∀ port, Settled s.params.syncStages port s) : Quiescent s := by
  constructor
  · intro g hg
    exact hset .write g (by rwa [List.take_of_length_le (h.syncOf_length hl .write).le])
  · intro g hg
    exact hset .read g (by rwa [List.take_of_length_le (h.syncOf_length hl .read).le])

/-! ### Runs of idle edges -/

/-- Idle edges of one clock, by their draws. -/
def idleCommands (port : Domain) (ds : List Draw) : List (Instr × Draw) := ds.map fun d => (idleCommand port, d)

theorem idleCommands_length (port : Domain) (ds : List Draw) : (idleCommands port ds).length = ds.length :=
  List.length_map _

/-- The states that idle edges of one clock lead through. -/
inductive IdleRun (port : Domain) : List Draw → State → State → Prop where
  | nil (s : State) : IdleRun port [] s s
  | cons {d : Draw} {ds : List Draw} {s t u : State} (head : IdleStep port d s t) (tail : IdleRun port ds t u) :
      IdleRun port (d :: ds) s u

theorem pushedBy_idleCommand (port : Domain) (t : State) : pushedBy (idleCommand port) t = [] := by cases port <;> rfl

theorem poppedBy_idleCommand (port : Domain) (t : State) : poppedBy (idleCommand port) t = [] := by cases port <;> rfl

theorem idleCommands_wellFormed (p : Params) (port : Domain) (ds : List Draw) :
    ∀ c ∈ idleCommands port ds, c.1.wellFormed p = true := by
  intro c hc
  obtain ⟨d, -, rfl⟩ := List.mem_map.1 hc
  cases port <;> rfl

/-- Idle edges push and pop nothing. -/
theorem idleRun_of_trace {port : Domain} {ds : List Draw} {s : State} {r : Trace}
    (h : trace (idleCommands port ds) s = some r) : IdleRun port ds s r.final ∧ r.pushed = [] ∧ r.popped = [] := by
  induction ds generalizing s r with
  | nil =>
    cases h
    exact ⟨.nil _, rfl, rfl⟩
  | cons d ds ih =>
    obtain ⟨t, r', ht, hr', rfl⟩ := trace_cons.1 h
    obtain ⟨hrun, hpush, hpop⟩ := ih hr'
    rw [pushedBy_idleCommand, poppedBy_idleCommand]
    exact ⟨.cons (idleStep_of_exec ht) hrun, hpush, hpop⟩

theorem exists_trace_prompt (port : Domain) (k : Nat) {s : State} (hr : s.ready = true) :
    ∃ r, trace (idleCommands port (List.replicate k .now)) s = some r := by
  induction k generalizing s with
  | zero => exact ⟨_, rfl⟩
  | succ k ih =>
    obtain ⟨t, ht⟩ := exists_idle_prompt port hr
    obtain ⟨r, hr'⟩ := ih (ready_of_steady (idleStep_of_exec ht).steady hr)
    exact ⟨_, trace_cons.2 ⟨t, r, ht, hr', rfl⟩⟩

section
variable {port : Domain} {ds : List Draw} {s t : State} (hrun : IdleRun port ds s t)
include hrun

theorem IdleRun.steady : t.steady = s.steady := by
  induction hrun with
  | nil s => rfl
  | cons head _ ih => exact ih.trans head.steady

theorem IdleRun.inv (h : Inv s) : Inv t := by
  induction hrun with
  | nil s => exact h
  | cons head _ ih => exact ih (head.inv h)

theorem IdleRun.live (hl : s.live = true) : t.live = true :=
  live_of_steady hrun.steady hl

theorem IdleRun.settled {k : Nat} {p : Domain} (hi : Inv s) (hl : s.live = true) (h : Settled k p s) :
    Settled k p t := by
  induction hrun with
  | nil s => exact h
  | cons head _ ih =>
    exact ih (head.inv hi) (live_of_steady head.steady hl) (h.of_step hi hl head)

end

/-- `n` prompt edges settle `n` stages. -/
theorem IdleRun.settled_prompt {port : Domain} {k n : Nat} {s t : State}
    (hrun : IdleRun port (List.replicate n .now) s t) (h : Settled k port s) : Settled (k + n) port t := by
  induction n generalizing k s with
  | zero =>
    cases hrun
    exact h
  | succ n ih =>
    obtain _ | ⟨head, tail⟩ := hrun
    rw [← Nat.add_assoc, Nat.add_right_comm]
    exact ih tail (h.of_sample head (sampled_now _ _))

theorem trace_pending {cs : List (Instr × Draw)} {s : State} {r : Trace} (h : trace cs s = some r) :
    r.final.pending = s.pending :=
  trace_final_eq State.pending (fun c _ u _ hv => exec_pending (s := u.withDraw c.2) hv) h

/-! ### SETTLE -/

theorem settle_eq_commandEvents (p : Params) :
    program p (settle p) = commandEvents p (idleCommands .write (List.replicate p.syncStages .now) ++
      idleCommands .read (List.replicate p.syncStages .now)) := by
  simp only [program, settle, commandEvents, idleCommands, List.map_append, List.map_replicate]
  rfl

/-- Settles O48: the write edges settle the write synchronizer, the read edges the other, and neither moves a
pointer. -/
theorem settleReachesQuiescence : Obligations.SettleReachesQuiescence := by
  intro s rest h hl
  have hready : (s.withPending rest).ready = true := (ready_iff _).2 ⟨(h.block hl).valid, hl⟩
  obtain ⟨r₁, hr₁⟩ := exists_trace_prompt .write s.params.syncStages hready
  obtain ⟨hrun₁, -, -⟩ := idleRun_of_trace hr₁
  obtain ⟨r₂, hr₂⟩ := exists_trace_prompt .read s.params.syncStages (ready_of_steady hrun₁.steady hready)
  obtain ⟨hrun₂, -, -⟩ := idleRun_of_trace hr₂
  have htrace := trace_append.2 ⟨r₁, r₂, hr₁, hr₂, rfl⟩
  have hi₁ : Inv r₁.final := hrun₁.inv (h.hostFields _ _ _ rest)
  have hl₁ : r₁.final.live = true := hrun₁.live hl
  have hl₂ : r₂.final.live = true := hrun₂.live hl₁
  have hsteady : r₂.final.steady = s.steady := hrun₂.steady.trans hrun₁.steady
  have hset : ∀ port, Settled s.params.syncStages port r₂.final := fun port => by
    cases port with
    | write =>
      exact hrun₂.settled hi₁ hl₁ ((hrun₁.settled_prompt (.zero _ _)).mono (Nat.le_add_left _ _))
    | read => exact (hrun₂.settled_prompt (.zero _ _)).mono (Nat.le_add_left _ _)
  have hquiet : Quiescent r₂.final :=
    (hrun₂.inv hi₁).quiescent_of_settled hl₂ (by rwa [params_of_steady hsteady])
  obtain ⟨hw, hr⟩ := ((hrun₂.inv hi₁).block hl₂).counts_of_quiescent hquiet
  have hsteps := runSteps_of_trace rest
    (List.forall_mem_append.2 ⟨idleCommands_wellFormed s.params _ _, idleCommands_wellFormed s.params _ _⟩) htrace
  obtain ⟨hwb, hrb⟩ := pointers_of_steady hsteady
  rw [← settle_eq_commandEvents, List.length_append, idleCommands_length, idleCommands_length, List.length_replicate,
    ← Nat.two_mul] at hsteps
  exact ⟨r₂.final, hsteps, hquiet, trace_pending htrace, contents_of_steady hsteady,
    hw.trans (occ_of_steady hsteady), hr.trans (occ_of_steady hsteady), hwb, hrb, result_of_steady hsteady⟩

end Sys2Proof.Machine
end

