-- ==== Sys2Proof/Proofs/Latency.lean ====
section
/-!
PROOFS. The two latencies (70_reset_and_hazards.md R227, R228): `SYNC_STAGES` prompt edges carry a pointer across, and
after fewer edges, whatever their draws, the last stage still holds what it held.
-/

namespace Sys2Proof.Machine

/-! ### What a synchronizer has not seen yet -/

/-- The stages of a domain's synchronizer after the first `k` hold an old value. -/
def Unseen (k : Nat) (old : Ptr) (port : Domain) (s : State) : Prop := ∀ g ∈ (syncOf port s).drop k, g = old

/-- One edge, whatever its draw, lets a new value one stage in. -/
theorem Unseen.of_step {k : Nat} {old : Ptr} {port : Domain} {d : Draw} {s t : State} (h : Unseen k old port s)
    (hst : IdleStep port d s t) : Unseen (k + 1) old port t := by
  obtain ⟨g, -, hq⟩ := hst.own
  intro g' hg'
  rw [hq, shiftIn, List.drop_succ_cons, List.drop_take] at hg'
  exact h g' (List.mem_of_mem_take hg')

theorem IdleRun.unseen {k : Nat} {old : Ptr} {port : Domain} {ds : List Draw} {s t : State} (hrun : IdleRun port ds s t)
    (h : Unseen k old port s) : Unseen (k + ds.length) old port t := by
  induction hrun generalizing k with
  | nil s => exact h
  | cons head _ ih =>
    rw [List.length_cons, ← Nat.add_assoc, Nat.add_right_comm]
    exact ih (h.of_step head)

/-- Before the last stage is reached, the view is the old value. -/
theorem Unseen.stage_eq {k : Nat} {old : Ptr} {port : Domain} {s : State} (h : Unseen k old port s)
    (hk : k < (syncOf port s).length) : stage (syncOf port s).length (syncOf port s) = old := by
  have hlast : (syncOf port s).length - 1 - k < ((syncOf port s).drop k).length := by
    rw [List.length_drop]
    omega
  have hold := h _ (List.getElem_mem hlast)
  have hidx : k + ((syncOf port s).length - 1 - k) = (syncOf port s).length - 1 := by omega
  simp only [List.getElem_drop, hidx] at hold
  rw [stage, List.getD_eq_getElem _ _ (by omega), hold]

section
variable {s : State} (h : Inv s) (hl : s.live = true)
include h hl

theorem Inv.ready : s.ready = true := (ready_iff _).2 ⟨(h.block hl).valid, hl⟩

/-- A settled read synchronizer counts every live frame. -/
theorem Inv.rdCount_of_settled (hset : Settled s.params.syncStages .read s) : rdCount s = occ s := by
  have hb := h.block hl
  rw [Settled, List.take_of_length_le (h.syncOf_length hl .read).le] at hset
  have hchain := chainDist_of_settled fun g hg => (hset g hg).trans hb.wgray
  exact BitVec.eq_of_toNat_eq (by rw [hb.occ_toNat, show chainDist s.wbin s.rq = 0 from hchain, Nat.add_zero])

/-- A settled write synchronizer counts the live frames alone. -/
theorem Inv.wrCount_of_settled (hset : Settled s.params.syncStages .write s) : wrCount s = occ s := by
  have hb := h.block hl
  rw [Settled, List.take_of_length_le (h.syncOf_length hl .write).le] at hset
  have hchain := chainDist_of_settled fun g hg => (hset g hg).trans hb.rgray
  exact BitVec.eq_of_toNat_eq (by rw [hb.wrCount_toNat, show chainDist s.rbin s.wq = 0 from hchain, Nat.zero_add])

/-- A view whose stages are all old but for fewer than `SYNC_STAGES` is old. -/
theorem Inv.view_of_unseen {k : Nat} {old : Ptr} {port : Domain} (hold : Unseen k old port s)
    (hk : k < s.params.syncStages) : stage s.params.syncStages (syncOf port s) = old := by
  have hlen := h.syncOf_length hl port
  rw [← hlen] at hk ⊢
  exact hold.stage_eq hk

end

theorem idleCommands_replicate (port : Domain) (n : Nat) (d : Draw) :
    idleCommands port (List.replicate n d) = List.replicate n (idleCommand port, d) := List.map_replicate

/-! ### Push to pop -/

section
variable {a : State} {f : Slot} (ha : Inv a) (hl : a.live = true)
include ha hl

/-- A lone frame is popped after `SYNC_STAGES` prompt read edges. -/
theorem pop_after_settling (hf : contents a = [f]) :
    ∃ r, trace (idleCommands .read (List.replicate a.params.syncStages .now) ++ [(.pop, .now)]) a = some r ∧
      r.popped = [f] := by
  obtain ⟨r₁, hr₁⟩ := exists_trace_prompt .read a.params.syncStages (ha.ready hl)
  obtain ⟨hrun, -, hpop₁⟩ := idleRun_of_trace hr₁
  have hi₁ := hrun.inv ha
  have hl₁ := hrun.live hl
  have hcontents : contents r₁.final = [f] := (contents_of_steady hrun.steady).trans hf
  have hset : Settled r₁.final.params.syncStages .read r₁.final := by
    rw [params_of_steady hrun.steady]
    exact (hrun.settled_prompt (.zero _ _)).mono (Nat.le_add_left _ _)
  have hne : rdEmpty r₁.final = false := by
    rw [rdEmpty_false_iff, hi₁.rdCount_of_settled hl₁ hset, Ne, ← contents_eq_nil_iff, hcontents]
    exact List.cons_ne_nil f []
  have ht := exec_pop_of_not_empty (s := r₁.final.withDraw .now) (hi₁.ready hl₁) hne (sampled_now _ _)
  refine ⟨_, trace_append.2 ⟨r₁, _, hr₁, trace_singleton.2 ⟨_, ht, rfl⟩, rfl⟩, ?_⟩
  have hqueue := (hi₁.withDraw .now).exec_queue (i := .pop) nofun ht
  rw [contents_withDraw, hcontents] at hqueue
  obtain ⟨hfirst, -⟩ := List.cons_eq_cons.1 hqueue
  rw [hpop₁]
  exact congrArg (fun v => [v]) hfirst

/-- Before the read view is reached a pop finds what it found before: nothing, where the old view is the read
pointer's. -/
theorem pop_before_settling {ds : List Draw} {d : Draw} {r : Trace}
    (hold : Unseen 0 (bin2gray a.rbin) .read a) (hds : ds.length < a.params.syncStages)
    (hr : trace (idleCommands .read ds ++ [(.pop, d)]) a = some r) : r.popped = [] ∧ r.final.rdValid = false := by
  obtain ⟨r₁, r₂, hr₁, hr₂, rfl⟩ := trace_append.1 hr
  obtain ⟨hrun, -, hpop₁⟩ := idleRun_of_trace hr₁
  obtain ⟨t, ht, rfl⟩ := trace_singleton.1 hr₂
  have hview := (hrun.inv ha).view_of_unseen (hrun.live hl) (hrun.unseen hold)
    (by rwa [params_of_steady hrun.steady, Nat.zero_add])
  obtain ⟨-, hrb⟩ := pointers_of_steady hrun.steady
  have hempty : rdEmpty r₁.final = true := by
    rw [rdEmpty_iff, rdCount, show r₁.final.rq = syncOf .read r₁.final from rfl, hview, gray2bin_bin2gray, hrb]
    exact ptrDist_self a.rbin
  have hv : t.rdValid = false := (exec_pop_rdValid_false_iff ht).2 hempty
  refine ⟨?_, hv⟩
  rw [hpop₁]
  exact if_neg (Bool.eq_false_iff.1 hv)

end

/-- Settles O49: after the push the lone frame is one that the read synchronizer has not seen. -/
theorem pushReachesReaderAfterStages : Obligations.PushReachesReaderAfterStages := by
  intro s a id v len h hl hq hempty hid ha
  obtain ⟨hp, hla⟩ := exec_params_live ha
  obtain ⟨⟨hrb, -, hrq, -⟩, -⟩ := exec_write_frame rfl ha
  have hia : Inv a := h.of_exec (i := .push id v len) (decide_eq_true hid) ha
  have hsrc := push_eq_sourcePush h hl hq ha
  rw [hempty] at hsrc
  obtain ⟨hcontents, -⟩ := Prod.mk.inj hsrc
  have hptr : s.rbin = s.wbin := ptrDist_eq_zero_iff.1 ((contents_eq_nil_iff s).1 hempty)
  have hold : Unseen 0 (bin2gray a.rbin) .read a := fun g hg => by
    rw [hrb, hptr, ← (h.block hl).wgray]
    exact hq.2 g (hrq ▸ hg)
  refine ⟨?_, fun ds d r hds hr => pop_before_settling hia hla hold (hp ▸ hds) hr⟩
  obtain ⟨r, hr, hpop⟩ := pop_after_settling hia hla hcontents
  rw [hp, idleCommands_replicate] at hr
  exact ⟨r, hr, hpop⟩

/-! ### Pop to push -/

section
variable {a : State} (ha : Inv a) (hl : a.live = true)
include ha hl

/-- Where a slot is free a push is accepted after `SYNC_STAGES` prompt write edges. -/
theorem push_after_settling (hocc : occ a ≠ 8) (id : Nat) (v : Payload) (len : Len) :
    ∃ r, trace (idleCommands .write (List.replicate a.params.syncStages .now) ++ [(.push id v len, .now)]) a = some r ∧
      r.final.wrAck = true ∧ r.pushed = [Slot.mk id v] := by
  obtain ⟨r₁, hr₁⟩ := exists_trace_prompt .write a.params.syncStages (ha.ready hl)
  obtain ⟨hrun, hpush₁, -⟩ := idleRun_of_trace hr₁
  have hi₁ := hrun.inv ha
  have hl₁ := hrun.live hl
  have hset : Settled r₁.final.params.syncStages .write r₁.final := by
    rw [params_of_steady hrun.steady]
    exact (hrun.settled_prompt (.zero _ _)).mono (Nat.le_add_left _ _)
  have hroom : wrFull r₁.final = false := by
    rwa [wrFull_false_iff, hi₁.wrCount_of_settled hl₁ hset, occ_of_steady hrun.steady]
  have ht := exec_push_of_not_full (s := r₁.final.withDraw .now) (hi₁.ready hl₁) hroom (sampled_now _ _) id v len
  refine ⟨_, trace_append.2 ⟨r₁, _, hr₁, trace_singleton.2 ⟨_, ht, rfl⟩, rfl⟩, rfl, ?_⟩
  rw [hpush₁]
  rfl

/-- Before the write view is reached a push finds what it found before: a full view, where the old view is half a turn
behind the write pointer. -/
theorem push_before_settling {ds : List Draw} {d : Draw} {r : Trace} {old : Ptr} {id : Nat} {v : Payload} {len : Len}
    (hold : Unseen 0 (bin2gray old) .write a) (hfull : ptrDist old a.wbin = 8) (hds : ds.length < a.params.syncStages)
    (hr : trace (idleCommands .write ds ++ [(.push id v len, d)]) a = some r) :
    r.final.wrAck = false ∧ r.pushed = [] ∧ occ r.final = occ a := by
  obtain ⟨r₁, r₂, hr₁, hr₂, rfl⟩ := trace_append.1 hr
  obtain ⟨hrun, hpush₁, -⟩ := idleRun_of_trace hr₁
  obtain ⟨t, ht, rfl⟩ := trace_singleton.1 hr₂
  have hview := (hrun.inv ha).view_of_unseen (hrun.live hl) (hrun.unseen hold)
    (by rwa [params_of_steady hrun.steady, Nat.zero_add])
  obtain ⟨hwb, -⟩ := pointers_of_steady hrun.steady
  have hrej : wrFull r₁.final = true := by
    rw [wrFull_iff, wrCount, show r₁.final.wq = syncOf .write r₁.final from rfl, hview, gray2bin_bin2gray, hwb, hfull]
  have hack : t.wrAck = false := (exec_push_wrAck_false_iff ht).2 hrej
  refine ⟨hack, ?_, ?_⟩
  · rw [hpush₁]
    exact pushedBy_of_not_ack (.push id v len) hack
  · exact (congrArg occ (exec_push_eq_of_full (s := r₁.final.withDraw d) hrej ht)).trans (occ_of_steady hrun.steady)

end

/-- Settles O50: after the pop the free slot is one that the write synchronizer has not seen. -/
theorem popReachesWriterAfterStages : Obligations.PopReachesWriterAfterStages := by
  intro s a id v len h hl hq hfull ha
  obtain ⟨hp, hla⟩ := exec_params_live ha
  obtain ⟨⟨hwb, -, hwq, -⟩, -⟩ := exec_read_frame rfl ha
  have hia : Inv a := h.of_exec rfl ha
  obtain ⟨-, hrd⟩ := (h.block hl).counts_of_quiescent hq
  have hne : rdEmpty s = false := (rdEmpty_false_iff s).2 (by rw [hrd, hfull]; decide)
  have hocc : occ a = 7 := by
    have hqueue := congrArg List.length (h.exec_queue (i := .pop) nofun ha)
    rw [show poppedBy .pop a = [Slot.mk a.rdFid a.rdFpay] from if_pos (exec_pop_rdValid hne ha), List.length_append,
      List.length_append, contents_length, contents_length, hfull] at hqueue
    exact BitVec.eq_of_toNat_eq (Nat.add_left_cancel hqueue)
  have hold : Unseen 0 (bin2gray s.rbin) .write a := fun g hg => by
    rw [← (h.block hl).rgray]
    exact hq.1 g (hwq ▸ hg)
  refine ⟨?_, fun ds d r hds hr => ?_⟩
  · obtain ⟨r, hr, hr'⟩ := push_after_settling hia hla (by rw [hocc]; decide) id v len
    rw [hp, idleCommands_replicate] at hr
    exact ⟨r, hr, hr'⟩
  · rw [← hocc]
    exact push_before_settling hia hla hold (hwb ▸ hfull) (hp ▸ hds) hr

end Sys2Proof.Machine
end

