-- ==== Sys2Proof/Proofs/Fairness.lean ====
section
/-!
PROOFS. Fairness (70_reset_and_hazards.md R237): an endless sequence of idle edges in which each domain's clock draws
`now` infinitely often settles one stage after another, and no other edge unsettles one.
-/

namespace Sys2Proof.Machine

/-! ### Idle edges as commands -/

/-- The domain whose clock has the edge. -/
def IdleEdge.port : IdleEdge → Domain
  | .write _ => .write
  | .read _ => .read

/-- The edge's draw. -/
def IdleEdge.draw : IdleEdge → Draw
  | .write d => d
  | .read d => d

theorem syncOf_withPending (port : Domain) (s : State) (es : List HostEvent) :
    syncOf port (s.withPending es) = syncOf port s := by cases port <;> rfl

theorem sourceOf_withPending (port : Domain) (s : State) (es : List HostEvent) :
    sourceOf port (s.withPending es) = sourceOf port s := by cases port <;> rfl

theorem idleStep_of_step {e : IdleEdge} {s t : State} {p : Params} {es : List HostEvent} (hp : s.params = p)
    (h : step (s.withPending (e.event p :: es)) = .next t) : IdleStep e.port e.draw s t := by
  subst hp
  have hexec : exec (idleCommand e.port) ((s.withPending es).withDraw e.draw) = .next t := by
    cases e <;> exact h
  obtain ⟨hsteady, hinv, hother, hown⟩ := idleStep_of_exec hexec
  simp only [syncOf_withPending, sourceOf_withPending] at hother hown
  exact ⟨hsteady, fun hi => hinv (hi.hostFields _ _ _ es), hother, hown⟩

theorem IdleEdge.drawsNow_iff {e : IdleEdge} {port : Domain} {s : State} :
    e.drawsNow port s ↔ e.port = port ∧
      sampled e.draw (firstStage (syncOf port s)) (sourceOf port s) = some (sourceOf port s) := by
  cases e <;> cases port <;> simp [IdleEdge.drawsNow, IdleEdge.port, IdleEdge.draw, syncOf, sourceOf]

/-! ### Endless sequences -/

theorem idleEvents_length (p : Params) (f : Nat → IdleEdge) (n : Nat) : (idleEvents p f n).length = n := by
  simp [idleEvents]

theorem idleEvents_succ_last (p : Params) (f : Nat → IdleEdge) (n : Nat) :
    idleEvents p f (n + 1) = idleEvents p f n ++ [(f n).event p] := by
  simp [idleEvents, List.range_succ]

/-- The first events of a beginning are a beginning. -/
theorem idleEvents_append_of_le (p : Params) (f : Nat → IdleEdge) {m n : Nat} (h : m ≤ n) :
    ∃ es, idleEvents p f n = idleEvents p f m ++ es := by
  obtain ⟨k, rfl⟩ := Nat.exists_eq_add_of_le h
  exact ⟨(List.range k).map fun j => (f (m + j)).event p, by simp [idleEvents, List.range_add, Function.comp_def]⟩

/-- `r` lists the states that the endless sequence `f` leads through from `u`. -/
def IdlePath (u : State) (f : Nat → IdleEdge) (r : Nat → State) : Prop :=
  ∀ m, runSteps m (u.withPending (idleEvents u.params f m)) = .next (r m)

/-- A fair sequence is nowhere refused. -/
theorem FairIdle.exists_path {u : State} {f : Nat → IdleEdge} (hf : FairIdle u f) : ∃ r, IdlePath u f r := by
  have hall : ∀ m, ∃ v, runSteps m (u.withPending (idleEvents u.params f m)) = .next v := fun m => by
    obtain ⟨n, t, hmn, ht, -⟩ := hf .write m
    obtain ⟨v, hv⟩ := exists_runSteps_of_le hmn ht
    obtain ⟨es, hes⟩ := idleEvents_append_of_le u.params f hmn
    have hm := idleEvents_length u.params f m
    have hrun := runSteps_withPending (es := idleEvents u.params f m) (tail := es) (by rwa [hm, ← hes]) []
    rw [hm, List.append_nil] at hrun
    exact ⟨_, hrun⟩
  exact Classical.skolem.1 hall

section
variable {u : State} {f : Nat → IdleEdge} {r : Nat → State} (hr : IdlePath u f r)
include hr

theorem IdlePath.append (m n : Nat) (es : List HostEvent) :
    runSteps (m + n) (u.withPending (idleEvents u.params f m ++ es)) = runSteps n ((r m).withPending es) := by
  have hm := idleEvents_length u.params f m
  have happ := runSteps_append (es := idleEvents u.params f m) (by rw [hm]; exact hr m) n es
  rwa [hm] at happ

theorem IdlePath.zero : r 0 = u.withPending [] := (Host.Outcome.next.inj (hr 0)).symm

theorem IdlePath.params (hi : Inv u) (m : Nat) : (r m).params = u.params :=
  (Inv.of_runSteps (hi.hostFields u.draw _ _ _) (hr m)).1

theorem IdlePath.inv (hi : Inv u) (m : Nat) : Inv (r m) :=
  (Inv.of_runSteps (hi.hostFields u.draw _ _ _) (hr m)).2

theorem IdlePath.step (hi : Inv u) (m : Nat) : IdleStep (f m).port (f m).draw (r m) (r (m + 1)) := by
  have hnext := hr (m + 1)
  rw [idleEvents_succ_last, hr.append m 1] at hnext
  obtain ⟨t, ht, hone⟩ := runSteps_succ_eq_next.1 hnext
  cases hone
  exact idleStep_of_step (hr.params hi m) ht

theorem IdlePath.steady (hi : Inv u) (m : Nat) : (r m).steady = u.steady := by
  induction m with
  | zero => rw [hr.zero]; rfl
  | succ m ih => exact (hr.step hi m).steady.trans ih

/-- A stage that is settled stays so. -/
theorem IdlePath.settled_of_le {k m n : Nat} {port : Domain} (hi : Inv u) (hl : u.live = true)
    (h : Settled k port (r m)) (hmn : m ≤ n) : Settled k port (r n) := by
  induction n, hmn using Nat.le_induction with
  | base => exact h
  | succ n _ ih => exact ih.of_step (hr.inv hi n) (live_of_steady (hr.steady hi n) hl) (hr.step hi n)

/-- Each stage of each synchronizer is settled some time. -/
theorem IdlePath.exists_settled (hi : Inv u) (hl : u.live = true) (hf : FairIdle u f) (port : Domain) (k : Nat) :
    ∃ m, Settled k port (r m) := by
  induction k with
  | zero => exact ⟨0, .zero port _⟩
  | succ k ih =>
    obtain ⟨m, hm⟩ := ih
    obtain ⟨n, t, hmn, ht, hnow⟩ := hf port m
    obtain rfl : r n = t := Host.Outcome.next.inj ((hr n).symm.trans ht)
    obtain ⟨hport, hsample⟩ := IdleEdge.drawsNow_iff.1 hnow
    have hstep := hr.step hi n
    rw [hport] at hstep
    exact ⟨n + 1, (hr.settled_of_le hi hl hm hmn).of_sample hstep hsample⟩

/-- A fair sequence leads to a quiescent state. -/
theorem IdlePath.exists_quiescent (hi : Inv u) (hl : u.live = true) (hf : FairIdle u f) : ∃ m, Quiescent (r m) := by
  obtain ⟨mw, hw⟩ := hr.exists_settled hi hl hf .write u.params.syncStages
  obtain ⟨mr, hrd⟩ := hr.exists_settled hi hl hf .read u.params.syncStages
  refine ⟨max mw mr, (hr.inv hi _).quiescent_of_settled (live_of_steady (hr.steady hi _) hl) fun port => ?_⟩
  rw [hr.params hi]
  cases port with
  | write => exact hr.settled_of_le hi hl hw (Nat.le_max_left mw mr)
  | read => exact hr.settled_of_le hi hl hrd (Nat.le_max_right mw mr)

end

/-- The edges after a program's run go on from the state it led to. -/
theorem runEnds_of_first_quiescent {s u : State} {prog : List HostEvent} {f : Nat → IdleEdge} {r : Nat → State}
    {n : Nat} (hprog : runSteps prog.length (s.withPending prog) = .next u) (hp : u.params = s.params)
    (hr : IdlePath u f r) (hn : Quiescent (r n)) (hfirst : ∀ k, k < n → ¬ Quiescent (r k)) :
    RunEnds s prog (idleEvents s.params f n) (r n) := by
  rw [← hp, RunEnds, idleEvents_length]
  refine ⟨(runSteps_append hprog n _).trans (hr n), hn, fun k v hk hv => ?_⟩
  obtain ⟨es, hes⟩ := idleEvents_append_of_le u.params f hk.le
  rw [runSteps_append hprog k, hes] at hv
  cases (hr.append k 0 es).symm.trans hv
  exact hfirst k hk

/-- Settles O51: the first quiescent state of the path; idle edges leave the rest of the block as the program left
it. -/
theorem fairRunsEnd : Obligations.FairRunsEnd := by
  classical
  intro s u prog f h hprog hl hf
  obtain ⟨hp, hi⟩ := Inv.of_runSteps (h.hostFields s.draw _ _ prog) hprog
  obtain ⟨r, hr⟩ := hf.exists_path
  have hex := hr.exists_quiescent hi hl hf
  obtain ⟨n, hn, hfirst⟩ : ∃ n, Quiescent (r n) ∧ ∀ k, k < n → ¬ Quiescent (r k) :=
    ⟨Nat.find hex, Nat.find_spec hex, fun k => Nat.find_min hex⟩
  have hsteady := hr.steady hi n
  obtain ⟨hw, hrd⟩ := ((hr.inv hi n).block (live_of_steady hsteady hl)).counts_of_quiescent hn
  obtain ⟨hid, hpay, hv⟩ := result_of_steady hsteady
  have hocc := occ_of_steady hsteady
  refine ⟨n, r n, runEnds_of_first_quiescent hprog hp hr hn hfirst, contents_of_steady hsteady, hocc, ?_⟩
  simp [endObservation, allOutputs, outputValue, hw, hrd, hocc, hid, hpay, hv]

end Sys2Proof.Machine
end
